-- ==== Sys2Proof/Word.lean ====
section
/-! DEFINITION. Bytes, byte sequences, and the 16-byte block (00_scope.md R5, R6; 41_block_decrypt.md R124): the word types and their plainest arithmetic.
-/
namespace Sys2Proof

/-- A byte: an unsigned 8-bit value (R6). -/
abbrev Byte := BitVec 8

/-- A buffer: a finite sequence of bytes, offset 0 first (R6). -/
abbrev Bytes := List Byte

/-- Four bytes: a column of the cipher state, rows 0 to 3, or a word of the key schedule (R124, R125). -/
structure Column where
  r0 : Byte
  r1 : Byte
  r2 : Byte
  r3 : Byte
  deriving DecidableEq, Repr, Inhabited

/-- Sixteen bytes: a key, an initialization vector or a cipher block. Byte `r + 4c` of the sequence is
row `r` of column `c` (R124), so the fields in order are bytes 0 to 15. -/
structure Block where
  c0 : Column
  c1 : Column
  c2 : Column
  c3 : Column
  deriving DecidableEq, Repr, Inhabited

/-- The four bytes of a column, row 0 first. -/
def Column.toList (c : Column) : Bytes := [c.r0, c.r1, c.r2, c.r3]

/-- The sixteen bytes of a block, byte 0 first (R53, R124). -/
def Block.toList (b : Block) : Bytes := b.c0.toList ++ b.c1.toList ++ b.c2.toList ++ b.c3.toList

/-- Byte `i` of a block; only `i < 16` names a byte of it. -/
def Block.get (b : Block) (i : Nat) : Byte := b.toList.getD i 0#8

/-- The block whose byte `i` is `f i`, for `i` in 0..15. -/
def Block.ofFn (f : Nat → Byte) : Block :=
  { c0 := { r0 := f 0, r1 := f 1, r2 := f 2, r3 := f 3 }
    c1 := { r0 := f 4, r1 := f 5, r2 := f 6, r3 := f 7 }
    c2 := { r0 := f 8, r1 := f 9, r2 := f 10, r3 := f 11 }
    c3 := { r0 := f 12, r1 := f 13, r2 := f 14, r3 := f 15 } }

/-- The block whose bytes are the first sixteen of `l`; every use has sixteen to give (log 17). -/
def Block.ofList (l : Bytes) : Block := Block.ofFn fun i => l.getD i 0#8

/-- Byte by byte exclusive-or of two columns (R9). -/
def Column.xor (a b : Column) : Column :=
  { r0 := a.r0 ^^^ b.r0, r1 := a.r1 ^^^ b.r1, r2 := a.r2 ^^^ b.r2, r3 := a.r3 ^^^ b.r3 }

/-- Byte by byte exclusive-or of two blocks (R9). -/
def Block.xor (a b : Block) : Block :=
  { c0 := a.c0.xor b.c0, c1 := a.c1.xor b.c1, c2 := a.c2.xor b.c2, c3 := a.c3.xor b.c3 }

end Sys2Proof
end

