-- ==== Sys2Proof/Machine/Aes.lean ====
section
/-! DEFINITION. AES-128 as 41_block_decrypt.md gives it: field arithmetic (R121), the two tables (R122, R123), the key
expansion (R125), the round functions (R126 to R129), the inverse cipher (R130) and the forward cipher (R137). -/
namespace Sys2Proof.Machine

/-- `a` times x: shift left, reduce by 0x1B if bit 7 was set (R121). -/
def xtime (a : Byte) : Byte := if a.getLsbD 7 then (a <<< 1) ^^^ 0x1B#8 else a <<< 1

/-- The loop of `gmul` with its remaining repeats, result, and the two running operands (R121). -/
def gmulLoop : Nat → Byte → Byte → Byte → Byte
  | 0, r, _, _ => r
  | n + 1, r, a, b => gmulLoop n (if b.getLsbD 0 then r ^^^ a else r) (xtime a) (b >>> 1)

/-- The product in GF(2^8) (R121). -/
def gmul (a b : Byte) : Byte := gmulLoop 8 0#8 a b

/-- Entry `lo` of a table row of sixteen bytes, column x0 leftmost (R122). -/
def rowEntry (row : BitVec 128) (lo : Nat) : Byte := row.extractLsb' (8 * (15 - lo)) 8

/-- The rows of the S-box table, row = high nibble (R122). -/
def sboxRow : Nat → BitVec 128
  | 0 => 0x637C777BF26B6FC53001672BFED7AB76#128
  | 1 => 0xCA82C97DFA5947F0ADD4A2AF9CA472C0#128
  | 2 => 0xB7FD9326363FF7CC34A5E5F171D83115#128
  | 3 => 0x04C723C31896059A071280E2EB27B275#128
  | 4 => 0x09832C1A1B6E5AA0523BD6B329E32F84#128
  | 5 => 0x53D100ED20FCB15B6ACBBE394A4C58CF#128
  | 6 => 0xD0EFAAFB434D338545F9027F503C9FA8#128
  | 7 => 0x51A3408F929D38F5BCB6DA2110FFF3D2#128
  | 8 => 0xCD0C13EC5F974417C4A77E3D645D1973#128
  | 9 => 0x60814FDC222A908846EEB814DE5E0BDB#128
  | 10 => 0xE0323A0A4906245CC2D3AC629195E479#128
  | 11 => 0xE7C8376D8DD54EA96C56F4EA657AAE08#128
  | 12 => 0xBA78252E1CA6B4C6E8DD741F4BBD8B8A#128
  | 13 => 0x703EB5664803F60E613557B986C11D9E#128
  | 14 => 0xE1F8981169D98E949B1E87E9CE5528DF#128
  | _ => 0x8CA1890DBFE6426841992D0FB054BB16#128

/-- The rows of the inverse S-box table (R123). -/
def invSboxRow : Nat → BitVec 128
  | 0 => 0x52096AD53036A538BF40A39E81F3D7FB#128
  | 1 => 0x7CE339829B2FFF87348E4344C4DEE9CB#128
  | 2 => 0x547B9432A6C2233DEE4C950B42FAC34E#128
  | 3 => 0x082EA16628D924B2765BA2496D8BD125#128
  | 4 => 0x72F8F66486689816D4A45CCC5D65B692#128
  | 5 => 0x6C704850FDEDB9DA5E154657A78D9D84#128
  | 6 => 0x90D8AB008CBCD30AF7E45805B8B34506#128
  | 7 => 0xD02C1E8FCA3F0F02C1AFBD0301138A6B#128
  | 8 => 0x3A9111414F67DCEA97F2CFCEF0B4E673#128
  | 9 => 0x96AC7422E7AD3585E2F937E81C75DF6E#128
  | 10 => 0x47F11A711D29C5896FB7620EAA18BE1B#128
  | 11 => 0xFC563E4BC6D279209ADBC0FE78CD5AF4#128
  | 12 => 0x1FDDA8338807C731B11210592780EC5F#128
  | 13 => 0x60517FA919B54A0D2DE57A9F93C99CEF#128
  | 14 => 0xA0E03B4DAE2AF5B0C8EBBB3C83539961#128
  | _ => 0x172B047EBA77D626E169146355210C7D#128

/-- `SBOX[x]` (R122). -/
def sbox (x : Byte) : Byte := rowEntry (sboxRow (x.toNat / 16)) (x.toNat % 16)

/-- `INV_SBOX[x]` (R123). -/
def invSbox (x : Byte) : Byte := rowEntry (invSboxRow (x.toNat / 16)) (x.toNat % 16)

/-- A function on bytes, applied to each byte of a column. -/
def mapColumn (f : Byte → Byte) (c : Column) : Column := { r0 := f c.r0, r1 := f c.r1, r2 := f c.r2, r3 := f c.r3 }

/-- A function on columns, applied to each column of a block. -/
def mapColumns (f : Column → Column) (s : Block) : Block := { c0 := f s.c0, c1 := f s.c1, c2 := f s.c2, c3 := f s.c3 }

/-- `RCON[i]` for `i` in 1..10 (R125); no other is used. -/
def rcon : Nat → Byte
  | 1 => 0x01#8
  | 2 => 0x02#8
  | 3 => 0x04#8
  | 4 => 0x08#8
  | 5 => 0x10#8
  | 6 => 0x20#8
  | 7 => 0x40#8
  | 8 => 0x80#8
  | 9 => 0x1B#8
  | _ => 0x36#8

/-- The word `t` of R125 for `i` a multiple of 4: rotate, substitute, then the round constant into the first byte. -/
def scheduleCore (rc : Byte) (t : Column) : Column :=
  { r0 := sbox t.r1 ^^^ rc, r1 := sbox t.r2, r2 := sbox t.r3, r3 := sbox t.r0 }

/-- The next four words of the key schedule from the last four (R125). -/
def nextRoundKey (rc : Byte) (k : Block) : Block :=
  let w0 := k.c0.xor (scheduleCore rc k.c3)
  let w1 := k.c1.xor w0
  let w2 := k.c2.xor w1
  let w3 := k.c3.xor w2
  { c0 := w0, c1 := w1, c2 := w2, c3 := w3 }

/-- `RoundKey(r)`: words `4r` to `4r + 3` of the expansion of `k` (R125). -/
def roundKey (k : Block) : Nat → Block
  | 0 => k
  | r + 1 => nextRoundKey (rcon (r + 1)) (roundKey k r)

/-- `AddRoundKey` (R126). -/
def addRoundKey (s rk : Block) : Block := s.xor rk

/-- `ShiftRows`: row `r` rotated left by `r` (R127). -/
def shiftRows (s : Block) : Block :=
  { c0 := { r0 := s.c0.r0, r1 := s.c1.r1, r2 := s.c2.r2, r3 := s.c3.r3 }
    c1 := { r0 := s.c1.r0, r1 := s.c2.r1, r2 := s.c3.r2, r3 := s.c0.r3 }
    c2 := { r0 := s.c2.r0, r1 := s.c3.r1, r2 := s.c0.r2, r3 := s.c1.r3 }
    c3 := { r0 := s.c3.r0, r1 := s.c0.r1, r2 := s.c1.r2, r3 := s.c2.r3 } }

/-- `InvShiftRows`: row `r` rotated right by `r` (R127). -/
def invShiftRows (s : Block) : Block :=
  { c0 := { r0 := s.c0.r0, r1 := s.c3.r1, r2 := s.c2.r2, r3 := s.c1.r3 }
    c1 := { r0 := s.c1.r0, r1 := s.c0.r1, r2 := s.c3.r2, r3 := s.c2.r3 }
    c2 := { r0 := s.c2.r0, r1 := s.c1.r1, r2 := s.c0.r2, r3 := s.c3.r3 }
    c3 := { r0 := s.c3.r0, r1 := s.c2.r1, r2 := s.c1.r2, r3 := s.c0.r3 } }

/-- `SubBytes` (R128). -/
def subBytes (s : Block) : Block := mapColumns (mapColumn sbox) s

/-- `InvSubBytes` (R128). -/
def invSubBytes (s : Block) : Block := mapColumns (mapColumn invSbox) s

/-- One output byte of a column product: a row of the matrix times the column (R129). -/
def mixRow (m0 m1 m2 m3 : Byte) (a : Column) : Byte := gmul m0 a.r0 ^^^ gmul m1 a.r1 ^^^ gmul m2 a.r2 ^^^ gmul m3 a.r3

/-- One column of `MixColumns` (R129). -/
def mixColumn (a : Column) : Column :=
  { r0 := mixRow 0x02#8 0x03#8 0x01#8 0x01#8 a
    r1 := mixRow 0x01#8 0x02#8 0x03#8 0x01#8 a
    r2 := mixRow 0x01#8 0x01#8 0x02#8 0x03#8 a
    r3 := mixRow 0x03#8 0x01#8 0x01#8 0x02#8 a }

/-- One column of `InvMixColumns` (R129). -/
def invMixColumn (a : Column) : Column :=
  { r0 := mixRow 0x0E#8 0x0B#8 0x0D#8 0x09#8 a
    r1 := mixRow 0x09#8 0x0E#8 0x0B#8 0x0D#8 a
    r2 := mixRow 0x0D#8 0x09#8 0x0E#8 0x0B#8 a
    r3 := mixRow 0x0B#8 0x0D#8 0x09#8 0x0E#8 a }

/-- `MixColumns` (R129). -/
def mixColumns (s : Block) : Block := mapColumns mixColumn s

/-- `InvMixColumns` (R129). -/
def invMixColumns (s : Block) : Block := mapColumns invMixColumn s

/-- Round `r` of the inverse cipher (R130). -/
def invRound (k : Block) (r : Nat) (s : Block) : Block :=
  invMixColumns (addRoundKey (invSubBytes (invShiftRows s)) (roundKey k r))

/-- Rounds `n` down to 1 of the inverse cipher (R130). -/
def invRounds (k : Block) : Nat → Block → Block
  | 0, s => s
  | n + 1, s => invRounds k n (invRound k (n + 1) s)

/-- `AES128_InvCipher(k, c)` (R130). Loading and storing are the identity: a `Block` is the state by columns (R124). -/
def invCipher (k c : Block) : Block :=
  addRoundKey (invSubBytes (invShiftRows (invRounds k 9 (addRoundKey c (roundKey k 10))))) (roundKey k 0)

/-- Round `r` of the forward cipher (R137). -/
def fwdRound (k : Block) (r : Nat) (s : Block) : Block :=
  addRoundKey (mixColumns (shiftRows (subBytes s))) (roundKey k r)

/-- Rounds 1 to `n` of the forward cipher (R137). -/
def fwdRounds (k : Block) : Nat → Block → Block
  | 0, s => s
  | n + 1, s => fwdRound k (n + 1) (fwdRounds k n s)

/-- `AES128_Cipher(k, p)` (R137): no command runs it; it states the round trip R138. -/
def cipher (k p : Block) : Block :=
  addRoundKey (shiftRows (subBytes (fwdRounds k 9 (addRoundKey p (roundKey k 0))))) (roundKey k 10)

end Sys2Proof.Machine
end

