-- ==== Sys2Proof/Syntax.lean ====
section
/-! DEFINITION. The instructions: one constructor for each row of spec/opcode_table.json. The host commands and the
reserved operations are 30_encoding.md R71 and R74, the wire records R75 and R76.
-/
namespace Sys2Proof

/-- The key family of a session: exactly two variants (10_state.md R22, 30_encoding.md R72). -/
inductive Family where
  | fam0
  | fam1
  deriving DecidableEq, Repr

/-- An instruction. A host command carries its payload, whose length travels with it (R70). A wire record carries
the four fields the decoder extracts (43_decode.md R185); its reserved bits are no operand (R77, log 13). -/
inductive Instr where
  /-- `BIND f, ADDR`: 0x10 + f; `addr` is `ADDR[0..5]` in payload order (R54). -/
  | bind (fam : Family) (addr : Bytes)
  /-- `RELEASE`: 0x20. -/
  | release
  /-- `DECRYPT buf`: 0x30. -/
  | decrypt (buf : Bytes)
  /-- `DECODE buf`: 0x40. -/
  | decode (buf : Bytes)
  /-- `POLL_DEC`: 0x50. -/
  | pollDec
  /-- `POLL_EVT`: 0x60. -/
  | pollEvt
  /-- `POLL`: 0x70. -/
  | poll
  /-- `STATUS`: 0x80. -/
  | status
  /-- `OP` = 0x0, reserved: any low nibble, any payload (R71, R74); the same for 0x9 to 0xF below. -/
  | reservedOp0 (low : BitVec 4) (payload : Bytes)
  | reservedOp9 (low : BitVec 4) (payload : Bytes)
  | reservedOpA (low : BitVec 4) (payload : Bytes)
  | reservedOpB (low : BitVec 4) (payload : Bytes)
  | reservedOpC (low : BitVec 4) (payload : Bytes)
  | reservedOpD (low : BitVec 4) (payload : Bytes)
  | reservedOpE (low : BitVec 4) (payload : Bytes)
  | reservedOpF (low : BitVec 4) (payload : Bytes)
  /-- The move record: discriminant 2, at least 8 bytes (R75, R184). `face` is the raw 4-bit code (R78). -/
  | move (serial : Byte) (face : BitVec 4) (prime : Bool) (elapsed : BitVec 16)
  /-- A record whose discriminant is 0: not recognised (R76, R183); the same for the other values below. -/
  | evtUnknown0
  | evtUnknown1
  | evtUnknown3
  | evtUnknown4
  | evtUnknown5
  | evtUnknown6
  | evtUnknown7
  | evtUnknown8
  | evtUnknown9
  | evtUnknown10
  | evtUnknown11
  | evtUnknown12
  | evtUnknown13
  | evtUnknown14
  | evtUnknown15
  deriving DecidableEq, Repr

/-- The two encodings the block meets (30_encoding.md, opening): commands on the command port, and records in a
decrypted buffer. -/
inductive Space where
  | command
  | record
  deriving DecidableEq, Repr

/-- Which of the two encodings an instruction belongs to. -/
def Instr.space : Instr → Space
  | .bind _ _ => .command
  | .release => .command
  | .decrypt _ => .command
  | .decode _ => .command
  | .pollDec => .command
  | .pollEvt => .command
  | .poll => .command
  | .status => .command
  | .reservedOp0 _ _ => .command
  | .reservedOp9 _ _ => .command
  | .reservedOpA _ _ => .command
  | .reservedOpB _ _ => .command
  | .reservedOpC _ _ => .command
  | .reservedOpD _ _ => .command
  | .reservedOpE _ _ => .command
  | .reservedOpF _ _ => .command
  | .move _ _ _ _ => .record
  | .evtUnknown0 => .record
  | .evtUnknown1 => .record
  | .evtUnknown3 => .record
  | .evtUnknown4 => .record
  | .evtUnknown5 => .record
  | .evtUnknown6 => .record
  | .evtUnknown7 => .record
  | .evtUnknown8 => .record
  | .evtUnknown9 => .record
  | .evtUnknown10 => .record
  | .evtUnknown11 => .record
  | .evtUnknown12 => .record
  | .evtUnknown13 => .record
  | .evtUnknown14 => .record
  | .evtUnknown15 => .record

end Sys2Proof
end

