-- ==== Sys2Proof/WellFormed.lean ====
section
/-! DEFINITION. Which instructions an encoding exists for: the one check on operands the types do not make, the length
of a `BIND` payload (30_encoding.md R73). -/
namespace Sys2Proof

/-- `ADDR` has exactly six bytes (R5 `ADDR_BYTES`, R73). -/
def addrOk (addr : Bytes) : Bool := addr.length == 6

/-- An instruction some command or record encodes. -/
def Instr.wf : Instr → Bool
  | .bind _ addr => addrOk addr
  | .release => true
  | .decrypt _ => true
  | .decode _ => true
  | .pollDec => true
  | .pollEvt => true
  | .poll => true
  | .status => true
  | .reservedOp0 _ _ => true
  | .reservedOp9 _ _ => true
  | .reservedOpA _ _ => true
  | .reservedOpB _ _ => true
  | .reservedOpC _ _ => true
  | .reservedOpD _ _ => true
  | .reservedOpE _ _ => true
  | .reservedOpF _ _ => true
  | .move _ _ _ _ => true
  | .evtUnknown0 => true
  | .evtUnknown1 => true
  | .evtUnknown3 => true
  | .evtUnknown4 => true
  | .evtUnknown5 => true
  | .evtUnknown6 => true
  | .evtUnknown7 => true
  | .evtUnknown8 => true
  | .evtUnknown9 => true
  | .evtUnknown10 => true
  | .evtUnknown11 => true
  | .evtUnknown12 => true
  | .evtUnknown13 => true
  | .evtUnknown14 => true
  | .evtUnknown15 => true

end Sys2Proof
end

