-- ==== Sys2Proof/Decode.lean ====
section
/-! DEFINITION. The decoder of both encodings and the encoder beside it: commands (30_encoding.md R70 to R74), wire
records (R75 to R78), the stream bits they are read by (00_scope.md R7), and the assembler text (R85). Decoding is
total and rejects by name. -/
namespace Sys2Proof

/-- Why no instruction is read. The first five are command shapes that R74 answers with `BAD_COMMAND`; the last two
are the records that the decoder answers with `Err(InvalidLength)` (43_decode.md R184, R187). -/
inductive DecodeError where
  /-- no command byte at all; a command always has one (R70), so the step never meets it -/
  | noCommandByte
  /-- `CMD[3:1]` is not 0 -/
  | reservedBits
  /-- `CMD[0]` is 1 outside `BIND` -/
  | famBit
  /-- a `BIND` payload not of six bytes -/
  | bindLength
  /-- a payload where none is taken -/
  | payloadNotEmpty
  /-- a record of no bytes, so with no discriminant -/
  | emptyRecord
  /-- a type-2 record of fewer than 63 bits -/
  | shortMove
  deriving DecidableEq, Repr

/-- Stream bit `i` of a buffer: bit 0 is the most significant bit of byte 0 (R7). Only `i < 8 * len` names a bit. -/
def sbit (buf : Bytes) (i : Nat) : Bool := (buf.getD (i / 8) 0#8).getLsbD (7 - i % 8)

/-- Stream bits `[lo, lo + w)` as an unsigned big-endian integer, the first bit read the most significant (R7). -/
def sbits (buf : Bytes) (lo : Nat) : (w : Nat) → BitVec w
  | 0 => 0#0
  | w + 1 => (sbits buf lo w).concat (sbit buf (lo + w))

/-- The family that a value of `FAM = CMD[0]` selects (R72). -/
def familyOfBit : Bool → Family
  | false => .fam0
  | true => .fam1

/-- The value of `FAM` for a family (R72). -/
def familyBit : Family → BitVec 4
  | .fam0 => 0#4
  | .fam1 => 1#4

/-- A command other than `BIND` wants `CMD[3:1] = 0`, then `CMD[0] = 0` (R74). -/
def decodeLowZero (low : BitVec 4) (i : Except DecodeError Instr) : Except DecodeError Instr :=
  if low.extractLsb' 1 3 ≠ 0#3 then .error .reservedBits
  else if low.getLsbD 0 then .error .famBit
  else i

/-- A command that takes no payload (R73). -/
def decodeNoPayload (payload : Bytes) (i : Instr) : Except DecodeError Instr :=
  match payload with
  | [] => .ok i
  | _ :: _ => .error .payloadNotEmpty

/-- The dispatch checks of R74 on a command byte and its payload, in their listed order. -/
def decodeCommand (cmd : Byte) (payload : Bytes) : Except DecodeError Instr :=
  let low := cmd.extractLsb' 0 4
  match (cmd.extractLsb' 4 4).toNat with
  | 0 => .ok (.reservedOp0 low payload)
  | 1 =>
    if low.extractLsb' 1 3 ≠ 0#3 then .error .reservedBits
    else if addrOk payload then .ok (.bind (familyOfBit (low.getLsbD 0)) payload)
    else .error .bindLength
  | 2 => decodeLowZero low (decodeNoPayload payload .release)
  | 3 => decodeLowZero low (.ok (.decrypt payload))
  | 4 => decodeLowZero low (.ok (.decode payload))
  | 5 => decodeLowZero low (decodeNoPayload payload .pollDec)
  | 6 => decodeLowZero low (decodeNoPayload payload .pollEvt)
  | 7 => decodeLowZero low (decodeNoPayload payload .poll)
  | 8 => decodeLowZero low (decodeNoPayload payload .status)
  | 9 => .ok (.reservedOp9 low payload)
  | 10 => .ok (.reservedOpA low payload)
  | 11 => .ok (.reservedOpB low payload)
  | 12 => .ok (.reservedOpC low payload)
  | 13 => .ok (.reservedOpD low payload)
  | 14 => .ok (.reservedOpE low payload)
  | _ => .ok (.reservedOpF low payload)

/-- A decrypted buffer read as a wire record: the discriminant first, then for a move record its length, then its
fields (R75, R76; 43_decode.md R182 to R185). -/
def decodeRecord (buf : Bytes) : Except DecodeError Instr :=
  if buf.length = 0 then .error .emptyRecord
  else
    match (sbits buf 0 4).toNat with
    | 0 => .ok .evtUnknown0
    | 1 => .ok .evtUnknown1
    | 2 =>
      if 8 * buf.length < 63 then .error .shortMove
      else .ok (.move (sbits buf 4 8) (sbits buf 12 4) (sbit buf 16) (sbits buf 47 16))
    | 3 => .ok .evtUnknown3
    | 4 => .ok .evtUnknown4
    | 5 => .ok .evtUnknown5
    | 6 => .ok .evtUnknown6
    | 7 => .ok .evtUnknown7
    | 8 => .ok .evtUnknown8
    | 9 => .ok .evtUnknown9
    | 10 => .ok .evtUnknown10
    | 11 => .ok .evtUnknown11
    | 12 => .ok .evtUnknown12
    | 13 => .ok .evtUnknown13
    | 14 => .ok .evtUnknown14
    | _ => .ok .evtUnknown15

/-- Decoding in either encoding. A command is its command byte followed by its payload. -/
def decode (sp : Space) (bs : Bytes) : Except DecodeError Instr :=
  match sp with
  | .record => decodeRecord bs
  | .command =>
    match bs with
    | [] => .error .noCommandByte
    | cmd :: payload => decodeCommand cmd payload

/-- A command byte from its operation and its low nibble (R70). -/
def cmdByte (op low : BitVec 4) : Byte := (op ++ low).setWidth 8

/-- A move record as one 64-bit number, stream bit 0 its most significant: type, serial, face code, prime, thirty
reserved bits, elapsed, one reserved bit; the reserved bits are 0 (R75, log 13). -/
def moveWord (serial : Byte) (face : BitVec 4) (prime : Bool) (elapsed : BitVec 16) : BitVec 64 :=
  (2#4 ++ serial ++ face ++ BitVec.ofBool prime ++ 0#30 ++ elapsed ++ 0#1).setWidth 64

/-- The eight bytes of a 64-bit number, the most significant first (R7). -/
def beBytes (w : BitVec 64) : Bytes :=
  [w.extractLsb' 56 8, w.extractLsb' 48 8, w.extractLsb' 40 8, w.extractLsb' 32 8, w.extractLsb' 24 8,
    w.extractLsb' 16 8, w.extractLsb' 8 8, w.extractLsb' 0 8]

/-- The bytes of an instruction: command byte and payload (R71), or the record (R75; one byte for a discriminant that
is not recognised, R76). -/
def encode : Instr → Bytes
  | .bind f addr => cmdByte 0x1#4 (familyBit f) :: addr
  | .release => [0x20#8]
  | .decrypt buf => 0x30#8 :: buf
  | .decode buf => 0x40#8 :: buf
  | .pollDec => [0x50#8]
  | .pollEvt => [0x60#8]
  | .poll => [0x70#8]
  | .status => [0x80#8]
  | .reservedOp0 low payload => cmdByte 0x0#4 low :: payload
  | .reservedOp9 low payload => cmdByte 0x9#4 low :: payload
  | .reservedOpA low payload => cmdByte 0xA#4 low :: payload
  | .reservedOpB low payload => cmdByte 0xB#4 low :: payload
  | .reservedOpC low payload => cmdByte 0xC#4 low :: payload
  | .reservedOpD low payload => cmdByte 0xD#4 low :: payload
  | .reservedOpE low payload => cmdByte 0xE#4 low :: payload
  | .reservedOpF low payload => cmdByte 0xF#4 low :: payload
  | .move serial face prime elapsed => beBytes (moveWord serial face prime elapsed)
  | .evtUnknown0 => [0x00#8]
  | .evtUnknown1 => [0x10#8]
  | .evtUnknown3 => [0x30#8]
  | .evtUnknown4 => [0x40#8]
  | .evtUnknown5 => [0x50#8]
  | .evtUnknown6 => [0x60#8]
  | .evtUnknown7 => [0x70#8]
  | .evtUnknown8 => [0x80#8]
  | .evtUnknown9 => [0x90#8]
  | .evtUnknown10 => [0xA0#8]
  | .evtUnknown11 => [0xB0#8]
  | .evtUnknown12 => [0xC0#8]
  | .evtUnknown13 => [0xD0#8]
  | .evtUnknown14 => [0xE0#8]
  | .evtUnknown15 => [0xF0#8]

/-- The `n` low bytes of a number, the least significant first. -/
def leBytes : Nat → Nat → Bytes
  | 0, _ => []
  | n + 1, w => BitVec.ofNat 8 w :: leBytes n (w / 256)

/-- `bs` followed by zero bytes up to the length `n`. -/
def padTo (n : Nat) (bs : Bytes) : Bytes := bs ++ List.replicate (n - bs.length) 0#8

/-- The command whose first bits are given: a `BIND` gets its six payload bytes, the bits above being 0; any other
payload is as long as the bits given (log 7). -/
def tableCommand (bs : Bytes) : Bytes :=
  match bs with
  | [] => [0#8]
  | cmd :: rest => if cmd.extractLsb' 4 4 = 0x1#4 then cmd :: padTo 6 rest else cmd :: rest

/-- Which encoding a word of the opcode table is read in, and its bytes. The rows of the two encodings overlap in
their first byte, so a choice is made: 64 bits or more are a record, fewer are a command where R74 lets them be one,
and a record of eight bytes otherwise (log 7). -/
def tableWord (nbits w : Nat) : Space × Bytes :=
  let bs := leBytes ((nbits + 7) / 8) w
  if 64 ≤ nbits then (.record, bs)
  else
    match decode .command (tableCommand bs) with
    | .ok _ => (.command, tableCommand bs)
    | .error _ => (.record, padTo 8 bs)

/-- The instruction of a word of the opcode table. -/
def decodeTableWord (nbits w : Nat) : Option Instr :=
  match decode (tableWord nbits w).1 (tableWord nbits w).2 with
  | .ok i => some i
  | .error _ => none

/-- One hexadecimal digit, as R85's examples write it. -/
def hexDigit (d : Nat) : String :=
  ["0", "1", "2", "3", "4", "5", "6", "7", "8", "9", "A", "B", "C", "D", "E", "F"].getD d "0"

/-- A byte as two hexadecimal digits (R85). -/
def hexByte (b : Byte) : String := hexDigit (b.toNat / 16) ++ hexDigit (b.toNat % 16)

/-- Bytes as digits with a separator between them (R85). -/
def hexBytes (sep : String) : Bytes → String
  | [] => ""
  | [b] => hexByte b
  | b :: bs => hexByte b ++ sep ++ hexBytes sep bs

/-- A name followed by bytes, with no trailing space for an empty buffer (R85, log 18). -/
def asmBuffer (name : String) (buf : Bytes) : String :=
  match buf with
  | [] => name
  | _ :: _ => name ++ " " ++ hexBytes " " buf

/-- The assembler text of a command (R85). The syntax has none for a reserved operation or for a record. -/
def asm : Instr → Option String
  | .bind .fam0 addr => some ("BIND 0, " ++ hexBytes ":" addr)
  | .bind .fam1 addr => some ("BIND 1, " ++ hexBytes ":" addr)
  | .release => some "RELEASE"
  | .decrypt buf => some (asmBuffer "DECRYPT" buf)
  | .decode buf => some (asmBuffer "DECODE" buf)
  | .pollDec => some "POLL_DEC"
  | .pollEvt => some "POLL_EVT"
  | .poll => some "POLL"
  | .status => some "STATUS"
  | .reservedOp0 _ _ => none
  | .reservedOp9 _ _ => none
  | .reservedOpA _ _ => none
  | .reservedOpB _ _ => none
  | .reservedOpC _ _ => none
  | .reservedOpD _ _ => none
  | .reservedOpE _ _ => none
  | .reservedOpF _ _ => none
  | .move _ _ _ _ => none
  | .evtUnknown0 => none
  | .evtUnknown1 => none
  | .evtUnknown3 => none
  | .evtUnknown4 => none
  | .evtUnknown5 => none
  | .evtUnknown6 => none
  | .evtUnknown7 => none
  | .evtUnknown8 => none
  | .evtUnknown9 => none
  | .evtUnknown10 => none
  | .evtUnknown11 => none
  | .evtUnknown12 => none
  | .evtUnknown13 => none
  | .evtUnknown14 => none
  | .evtUnknown15 => none

end Sys2Proof
end

