-- ==== Sys2Proof/Config.lean ====
section
/-! DEFINITION. The parameters the spec leaves open (00_scope.md R5): the key table, the largest buffer, and the
upstream agent's answers. Each is an opaque constant, so no proof can rest on its value. -/
namespace Sys2Proof

/-- One entry of the key table: `(BASE_KEY_f, BASE_IV_f)` (10_state.md R22). -/
structure KeyPair where
  key : Block
  iv  : Block
  deriving DecidableEq, Repr, Inhabited

/-- `KEY_TABLE`: one entry for each of the two families (R22). -/
structure KeyTable where
  fam0 : KeyPair
  fam1 : KeyPair
  deriving DecidableEq, Repr, Inhabited

/-- What the upstream agent answers to one pull (10_state.md R31). -/
inductive UpAnswer where
  | ready (buf : Bytes)
  | notReady
  | exhausted
  deriving DecidableEq, Repr, Inhabited

/-- `KEY_TABLE`, OPEN (R5, decision D5): no byte of it is known (log 1). -/
opaque Config.keyTable : KeyTable

/-- How far a finite `MAX_BUF_LEN` lies above its least value 17; `none` for an unbounded one (R5, decision D19). -/
opaque Config.maxBufSlack : Option Nat

/-- `MAX_BUF_LEN`, OPEN: a natural number of at least 17, or unbounded (`none`) (R5, log 2). -/
def Config.maxBufLen : Option Nat := Config.maxBufSlack.map (· + 17)

/-- `UPSTREAM`, OPEN: the answer to draw number `n`, a free value (R5, decision D15, log 3). -/
opaque Config.upstreamAnswer : Nat → UpAnswer

end Sys2Proof
end

