-- ==== Sys2Proof/Machine/State.lean ====
section
/-! DEFINITION. The state of the block (10_state.md), with the environment at its three ports, the outcomes that are
stops, and the state right after reset (R34, R260). -/
namespace Sys2Proof.Machine

/-- The fault codes the block writes to `FAULT` (10_state.md R26, causes in 60_exceptions.md R232). -/
inductive FaultCode where
  | decryptShortBuffer
  | faceCodeRange
  | noSession
  | sessionActive
  | badCommand
  | bufferTooLong
  deriving DecidableEq, Repr

/-- A response `(RSP, BODY)` of the block, by name (30_encoding.md R80). -/
inductive Response where
  | ack
  | status (view : Byte)
  | buffer (buf : Bytes)
  | result (res32 : BitVec 32)
  | notReady
  | exhausted
  | itemBuffer (buf : Bytes)
  | itemResult (res32 : BitVec 32)
  | faulted (code : BitVec 4)
  deriving DecidableEq, Repr

/-- One input of the host: a command on the command port (R70), or the external reset event (70 R260). -/
inductive HostInput where
  | command (cmd : Byte) (payload : Bytes)
  | reset
  deriving DecidableEq, Repr

/-- The command on whose behalf the decoder runs; it selects the response (R80: `RESULT` or `ITEM_RESULT`). -/
inductive Owner where
  | decode
  | pollEvt
  | poll
  deriving DecidableEq, Repr

/-- The working buffer as the decoder receives it (20_memory.md R50), with the command that owns it (log 6). -/
structure WorkBuf where
  owner : Owner
  bytes : Bytes
  deriving DecidableEq, Repr

/-- The machine. The first nine fields are the block's own; the last four are the environment at the command, response
and upstream ports, which no reset of the block touches. -/
structure State where
  /-- `KEY_TABLE` (R22): read only. -/
  keyTable : KeyTable
  /-- `MAX_BUF_LEN` (R5): a parameter; `none` is unbounded (log 2). -/
  maxBufLen : Option Nat
  /-- `BOUND` (R23). -/
  bound : Bool
  /-- `EFF_KEY` (R24): `none` is the spec's "no value" (R33). -/
  effKey : Option Block
  /-- `EFF_IV` (R25): `none` is the spec's "no value" (R33). -/
  effIv : Option Block
  /-- `FAULT` (R26): 0 is `NONE`. -/
  fault : BitVec 4
  /-- The working buffer of the command in progress (R34, R50): none between commands (R57). -/
  work : Option WorkBuf
  /-- `UP_TAKEN` (R32): ghost. -/
  upTaken : Nat
  /-- `ITEMS_OUT` (R32): ghost. -/
  itemsOut : Nat
  /-- Answers the upstream agent is about to give, oldest first (R31, R85; log 3). -/
  upstream : List UpAnswer
  /-- Number of the next free upstream answer, drawn when `upstream` has run out (log 3). -/
  draws : Nat
  /-- Inputs the host has queued, oldest first (log 4). -/
  inbox : List HostInput
  /-- Responses given, newest first (log 5). -/
  out : List Response
  deriving DecidableEq, Repr

/-- Why the machine stops. A fault of the block itself (R233) is no stop: it is a next state with `FAULT` set. -/
inductive Fault where
  /-- Raised by `State.readEffKey` (in `DECRYPT`, `POLL_DEC`, `POLL`) when `EFF_KEY` has no value: "A read of either
  faults" (R33, I16). Safe: no reachable state raises it, since `BOUND` is checked first. -/
  | effKeyUnwritten
  /-- Raised by `State.readEffIv` (in `DECRYPT`, `POLL_DEC`, `POLL`) when `EFF_IV` has no value (R33, I16). Safe, for
  the same reason. -/
  | effIvUnwritten
  deriving DecidableEq, Repr

/-- Why an instruction has no meaning. -/
inductive Refusal where
  /-- Raised by an arm of `exec` for an instruction not modelled yet; safe. No arm raises it. -/
  | notModelled (mnemonic : String)
  deriving DecidableEq, Repr

/-- The state right after reset (R34): no session, no fault, counters 0, the parameters at their values; the
environment has nothing queued (DESIGN CHOICE, logs 3, 4, 5). -/
def State.reset : State :=
  { keyTable := Config.keyTable
    maxBufLen := Config.maxBufLen
    bound := false
    effKey := none
    effIv := none
    fault := 0#4
    work := none
    upTaken := 0
    itemsOut := 0
    upstream := []
    draws := 0
    inbox := []
    out := [] }

end Sys2Proof.Machine
end

