-- ==== Sys2Proof/Machine/Flags.lean ====
section
/-! DEFINITION. The block has no condition codes (10_state.md R28). This file holds what it reports instead: the fault
codes, the status view (R27), the response codes and bodies (30_encoding.md R80), and the result word (R82). -/
namespace Sys2Proof.Machine

/-- The value a fault code is written as (R26). -/
def FaultCode.code : FaultCode → BitVec 4
  | .decryptShortBuffer => 1#4
  | .faceCodeRange => 2#4
  | .noSession => 3#4
  | .sessionActive => 4#4
  | .badCommand => 5#4
  | .bufferTooLong => 6#4

/-- The status view: bits [7:4] `FAULT`, bits [3:1] 0, bit 0 `BOUND` (R27). -/
def State.statusView (s : State) : Byte := (s.fault ++ 0#3 ++ BitVec.ofBool s.bound).setWidth 8

/-- The six faces, in their canonical order (43_decode.md R181). -/
inductive Face where
  | U
  | R
  | F
  | D
  | L
  | B
  deriving DecidableEq, Repr

/-- `code(f)`: the index of a face (R181, R190). -/
def Face.code : Face → BitVec 3
  | .U => 0#3
  | .R => 1#3
  | .F => 2#3
  | .D => 3#3
  | .L => 4#3
  | .B => 5#3

/-- `FACE[code]`: the face of a 4-bit code, none for 6 to 15 (R78, R181). -/
def faceOfCode (code : BitVec 4) : Option Face :=
  match code.toNat with
  | 0 => some .U
  | 1 => some .R
  | 2 => some .F
  | 3 => some .D
  | 4 => some .L
  | 5 => some .B
  | _ => none

/-- A Decoded Move Event (R180). -/
structure Event where
  serial : Byte
  face : Face
  prime : Bool
  elapsed : BitVec 16
  deriving DecidableEq, Repr

/-- The direction of the derived command: 01 for +1, 11 for -1, two's complement (R188, decision D31). -/
def Event.dir (ev : Event) : BitVec 2 := if ev.prime then 3#2 else 1#2

/-- The derived command of an event: its face and direction (R188). -/
def Event.command (ev : Event) : Face × Int := (ev.face, ev.dir.toInt)

/-- The two recoverable decode failures (R11). -/
inductive DecodeFailure where
  | invalidLength
  | unknownEventType
  deriving DecidableEq, Repr

/-- `Result<Event, DecodeFailure>` (R11). -/
inductive EventResult where
  | ok (ev : Event)
  | err (f : DecodeFailure)
  deriving DecidableEq, Repr

/-- What `Decode` returns: a result, or the fault outcome `Fault(FACE_CODE_RANGE)` (R182). -/
inductive DecodeOutcome where
  | result (r : EventResult)
  | faceFault
  deriving DecidableEq, Repr

/-- `Pack`: the result word `RES32` (R82, R190). -/
def pack : EventResult → BitVec 32
  | .ok ev => (ev.elapsed ++ ev.serial ++ BitVec.ofBool ev.prime ++ ev.face.code ++ 0#4).setWidth 32
  | .err .invalidLength => 1#32
  | .err .unknownEventType => 2#32

/-- The response code `RSP` (R80). -/
def Response.rsp : Response → BitVec 4
  | .ack => 0#4
  | .status _ => 1#4
  | .buffer _ => 2#4
  | .result _ => 3#4
  | .notReady => 4#4
  | .exhausted => 5#4
  | .itemBuffer _ => 6#4
  | .itemResult _ => 7#4
  | .faulted _ => 8#4

/-- `RES32` as bytes, most significant first (R80). -/
def resBytes (w : BitVec 32) : Bytes :=
  [w.extractLsb' 24 8, w.extractLsb' 16 8, w.extractLsb' 8 8, w.extractLsb' 0 8]

/-- The response body `BODY`, as bytes (R80). -/
def Response.body : Response → Bytes
  | .ack => []
  | .status view => [view]
  | .buffer buf => buf
  | .result w => resBytes w
  | .notReady => []
  | .exhausted => []
  | .itemBuffer buf => buf
  | .itemResult w => resBytes w
  | .faulted code => [(0#4 ++ code).setWidth 8]

end Sys2Proof.Machine
end

