-- ==== Sys2Proof/Machine/Operands.lean ====
section
/-! DEFINITION. The operands of the commands: the working buffer and its reads and writes (00_scope.md R10, 20_memory.md
R50), and the decoded record (43_decode.md R182). -/
namespace Sys2Proof.Machine

/-- `MemRead(a, n)`: the bytes at offsets `[a, a + n)` of a buffer (R10). -/
def memRead (buf : Bytes) (a n : Nat) : Bytes := (buf.drop a).take n

/-- `MemWrite(a, n, v)`: the buffer with the bytes at `[a, a + n)` replaced by `v`, which has `n` bytes (R10). -/
def memWrite (buf : Bytes) (a : Nat) (v : Bytes) : Bytes := buf.take a ++ v ++ buf.drop (a + v.length)

/-- Whether a buffer exceeds a finite `MAX_BUF_LEN` (R134, R189). -/
def tooLong (maxBufLen : Option Nat) (buf : Bytes) : Bool :=
  match maxBufLen with
  | none => false
  | some m => m < buf.length

/-- What the decoder makes of the four fields of a move record: the face code is checked last (R182, R186). -/
def moveOutcome (serial : Byte) (face : BitVec 4) (prime : Bool) (elapsed : BitVec 16) : DecodeOutcome :=
  match faceOfCode face with
  | some f => .result (.ok { serial := serial, face := f, prime := prime, elapsed := elapsed })
  | none => .faceFault

/-- `Decode(buf)`: empty, discriminant, length, fields, face code, in that order (R182 to R187). -/
def decodeEvent (buf : Bytes) : DecodeOutcome :=
  if buf.length = 0 then .result (.err .invalidLength)
  else if sbits buf 0 4 ≠ 2#4 then .result (.err .unknownEventType)
  else if 8 * buf.length < 63 then .result (.err .invalidLength)
  else moveOutcome (sbits buf 4 8) (sbits buf 12 4) (sbit buf 16) (sbits buf 47 16)

end Sys2Proof.Machine
end

