-- ==== Sys2Proof/Machine/Ops.lean ====
section
/-! DEFINITION. The shared operations of the commands: responding, taking a fault (60_exceptions.md R233), the check of
a faulted block (R234), leaving a fault by reset (R237, 70 R260), pulling from upstream (10_state.md R31, R66), and
reading the session's key and IV (R33). -/
namespace Sys2Proof.Machine

/-- What a meaning answers. -/
abbrev Answer := Host.Outcome State Fault Refusal

/-- `respond(r)`: one response, and the command's working buffer is gone (R10, R50). -/
def State.respond (s : State) (r : Response) : State := { s with out := r :: s.out, work := none }

/-- `raise Fault(code)`: `FAULT` takes the code and the command answers `FAULTED(code)`; no other state changes and the
working buffer is discarded (R233). -/
def State.raiseFault (s : State) (c : FaultCode) : State := { s with fault := c.code }.respond (.faulted c.code)

/-- The first check of the dispatch: a faulted block answers `FAULTED(FAULT)` and runs nothing (R74, R234). -/
def State.whenLive (s : State) (k : State → Answer) : Answer :=
  if s.fault = 0#4 then k s else .next (s.respond (.faulted s.fault))

/-- Reset, the one return from a fault (R237): every element at its value of R34, the parameters and the environment
untouched, no response (R260, R261). -/
def State.resetBlock (s : State) : State :=
  { s with bound := false, effKey := none, effIv := none, fault := 0#4, work := none, upTaken := 0, itemsOut := 0 }

/-- `BAD_COMMAND`, taken at dispatch (R74). -/
def State.badCommand (s : State) : Answer := s.whenLive fun s => .next (s.raiseFault .badCommand)

/-- `EFF_KEY <- K; EFF_IV <- V; BOUND <- 1` (40 R104). -/
def State.bindSession (s : State) (K V : Block) : State := { s with effKey := some K, effIv := some V, bound := true }

/-- `BOUND <- 0`, and the key and IV have no value (40 R105). -/
def State.endSession (s : State) : State := { s with bound := false, effKey := none, effIv := none }

/-- A read of `EFF_KEY`: faults while it has no value (R33). -/
def State.readEffKey (s : State) (k : Block → Answer) : Answer :=
  match s.effKey with
  | some K => k K
  | none => .fault .effKeyUnwritten

/-- A read of `EFF_IV`: faults while it has no value (R33). -/
def State.readEffIv (s : State) (k : Block → Answer) : Answer :=
  match s.effIv with
  | some V => k V
  | none => .fault .effIvUnwritten

/-- `Upstream.pull()`: the next answer, and the state with the upstream moved past it (R31, R66; log 3). -/
def State.pull (s : State) : UpAnswer × State :=
  match s.upstream with
  | a :: rest => (a, { s with upstream := rest })
  | [] => (Config.upstreamAnswer s.draws, { s with draws := s.draws + 1 })

/-- `UP_TAKEN <- UP_TAKEN + 1` (R160). -/
def State.countTaken (s : State) : State := { s with upTaken := s.upTaken + 1 }

/-- `ITEMS_OUT <- ITEMS_OUT + 1` (R160). -/
def State.countItem (s : State) : State := { s with itemsOut := s.itemsOut + 1 }

/-- The working buffer handed to the decoder on behalf of a command (R50, log 6). -/
def State.own (s : State) (o : Owner) (buf : Bytes) : State := { s with work := some { owner := o, bytes := buf } }

/-- The one pull of a poll and its three answers: `NotReady` and `Exhausted` are passed on and change nothing of the
block, an item is counted in `UP_TAKEN` (R81, R160, R162, R163). `lift` wraps the quiet answers. -/
def State.afterPull {α : Type} (s : State) (lift : State → α) (item : Bytes → State → α) : α :=
  match s.pull with
  | (.notReady, s') => lift (s'.respond .notReady)
  | (.exhausted, s') => lift (s'.respond .exhausted)
  | (.ready buf, s') => item buf s'.countTaken

/-- The command the decoder is running for; a record with no working buffer under it is run as `DECODE` (log 6). -/
def State.owner (s : State) : Owner :=
  match s.work with
  | some w => w.owner
  | none => .decode

/-- A result word delivered to the host: `RESULT` for `DECODE`, a counted `ITEM_RESULT` for a poll (R80, R189, R210). -/
def State.deliver (s : State) (w : BitVec 32) : State :=
  match s.owner with
  | .decode => s.respond (.result w)
  | .pollEvt => s.countItem.respond (.itemResult w)
  | .poll => s.countItem.respond (.itemResult w)

/-- The end of a command that decodes: its result, or the fault `FACE_CODE_RANGE` (R189, R210, R212). -/
def State.finishDecode (s : State) (r : DecodeOutcome) : State :=
  match r with
  | .result r => s.deliver (pack r)
  | .faceFault => s.raiseFault .faceCodeRange

end Sys2Proof.Machine
end

