-- ==== Sys2Proof/Machine/Decryptor.lean ====
section
/-! DEFINITION. The address-salted decryptor: the key derivation (40_key_derivation.md R100 to R103), one block
decryption (41_block_decrypt.md R131), the two-ended decryption of a buffer (R133, R135), and the device side (R138). -/
namespace Sys2Proof.Machine

/-- `KeyTableLookup(f)` (R100). -/
def keyTableLookup (t : KeyTable) (f : Family) : KeyPair :=
  match f with
  | .fam0 => t.fam0
  | .fam1 => t.fam1

/-- The salt of an address: its bytes reversed (R101). -/
def saltOf (addr : Bytes) : Bytes := addr.reverse

/-- One salted lane: the sum in a wider integer, modulo 255 (R102). -/
def saltByte (base salt : Byte) : Byte := BitVec.ofNat 8 ((base.toNat + salt.toNat) % 255)

/-- `Salt16(base, SALT)`: lanes 0 to 5 salted, bytes 6 to 15 as they are (R102). -/
def salt16 (base : Block) (salt : Bytes) : Block :=
  Block.ofFn fun i => if i < 6 then saltByte (base.get i) (salt.getD i 0#8) else base.get i

/-- The effective key of a family and an address (R103). -/
def effectiveKey (t : KeyTable) (f : Family) (addr : Bytes) : Block := salt16 (keyTableLookup t f).key (saltOf addr)

/-- The effective IV of a family and an address, computed with the same salt, independently of the key (R103). -/
def effectiveIv (t : KeyTable) (f : Family) (addr : Bytes) : Block := salt16 (keyTableLookup t f).iv (saltOf addr)

/-- `DecryptBlock(K, V, c)` (R131). -/
def decryptBlock (K V c : Block) : Block := (invCipher K c).xor V

/-- One block of a buffer decrypted in place at offset `a` (R133). -/
def decryptAt (K V : Block) (buf : Bytes) (a : Nat) : Bytes :=
  memWrite buf a (decryptBlock K V (Block.ofList (memRead buf a 16))).toList

/-- `Decrypt(buf)` for a buffer of more than 16 bytes: the last block, then the first, read after the last is written
(R133, R135). -/
def decryptBuf (K V : Block) (buf : Bytes) : Bytes :=
  decryptAt K V (decryptAt K V buf (buf.length - 16)) 0

/-- One block of a buffer encrypted in place at offset `a`, as the device does (R138). -/
def encryptAt (K V : Block) (buf : Bytes) (a : Nat) : Bytes :=
  memWrite buf a (cipher K ((Block.ofList (memRead buf a 16)).xor V)).toList

/-- `Encrypt(p)`, the device side: the first block, then the last (R138). No command runs it. -/
def encryptBuf (K V : Block) (p : Bytes) : Bytes :=
  encryptAt K V (encryptAt K V p 0) (p.length - 16)

end Sys2Proof.Machine
end

