-- ==== Sys2Proof/Machine/Decrypt.lean ====
section
/-! DEFINITION. The commands whose response is a decrypted buffer: `DECRYPT` (41_block_decrypt.md R134) and `POLL_DEC`
(42_decrypt_transform.md R160). -/
namespace Sys2Proof.Machine

/-- The length checks before a decryption, then the decryption under the session's key and IV; `k` takes the decrypted
buffer (R134, R164, decisions D7 and D8). -/
def State.decryptChecked (s : State) (buf : Bytes) (k : Bytes → Answer) : Answer :=
  if tooLong s.maxBufLen buf then .next (s.raiseFault .bufferTooLong)
  else if buf.length ≤ 16 then .next (s.raiseFault .decryptShortBuffer)
  else s.readEffKey fun K => s.readEffIv fun V => k (decryptBuf K V buf)

/-- The check for a session, made before any effect (R134, R160, R212, decision D12). -/
def State.whenBound (s : State) (k : State → Answer) : Answer :=
  if s.bound then k s else .next (s.raiseFault .noSession)

/-- `DECRYPT` (R134). -/
def execDecrypt (buf : Bytes) (s : State) : Answer :=
  s.whenLive fun s => s.whenBound fun s => s.decryptChecked buf fun p => .next (s.respond (.buffer p))

/-- `POLL_DEC` (R160). -/
def execPollDec (s : State) : Answer :=
  s.whenLive fun s =>
    s.whenBound fun s =>
      s.afterPull .next fun buf s => s.decryptChecked buf fun p => .next (s.countItem.respond (.itemBuffer p))

end Sys2Proof.Machine
end

