-- ==== Sys2Proof/Machine/Event.lean ====
section
/-! DEFINITION. The commands whose response is a decoded event: `DECODE` (43_decode.md R189), `POLL_EVT` and `POLL`
(44_decode_transform.md R210, R212). -/
namespace Sys2Proof.Machine

/-- The decoder run on a buffer on behalf of a command (R182, R189, R210, R212). -/
def State.runDecoder (s : State) (o : Owner) (buf : Bytes) : State := (s.own o buf).finishDecode (decodeEvent buf)

/-- The length check of a buffer that is decoded, then the decoder (R189, R210). -/
def State.decodeChecked (s : State) (o : Owner) (buf : Bytes) : State :=
  if tooLong s.maxBufLen buf then s.raiseFault .bufferTooLong else s.runDecoder o buf

/-- `DECODE` (R189): `BOUND` is not read (decision D29). -/
def execDecode (buf : Bytes) (s : State) : Answer := s.whenLive fun s => .next (s.decodeChecked .decode buf)

/-- `POLL_EVT` (R210): `BOUND` is not read (decision D29). -/
def execPollEvt (s : State) : Answer :=
  s.whenLive fun s => .next (s.afterPull id fun buf s => s.decodeChecked .pollEvt buf)

/-- `POLL` (R212): the two transforms composed. -/
def execPoll (s : State) : Answer :=
  s.whenLive fun s =>
    s.whenBound fun s =>
      s.afterPull .next fun buf s => s.decryptChecked buf fun p => .next (s.runDecoder .poll p)

end Sys2Proof.Machine
end

