-- ==== Sys2Proof/Machine/Record.lean ====
section
/-! DEFINITION. The wire records: what the decoder does with the record in the working buffer, for the command that
owns it (43_decode.md R182, R183, R186; log 6). -/
namespace Sys2Proof.Machine

/-- A record of the given outcome, run by the decoder. A faulted block runs nothing (R234, log 12). -/
def State.runRecord (s : State) (r : DecodeOutcome) : Answer := s.whenLive fun s => .next (s.finishDecode r)

/-- The move record: an event, or `FACE_CODE_RANGE` for a face code of 6 to 15 (R182, R186). -/
def execMove (serial : Byte) (face : BitVec 4) (prime : Bool) (elapsed : BitVec 16) (s : State) : Answer :=
  s.runRecord (moveOutcome serial face prime elapsed)

/-- A record whose discriminant is not recognised: `Err(UnknownEventType)`, without further parsing (R183). -/
def State.runUnknown (s : State) : Answer := s.runRecord (.result (.err .unknownEventType))

/-- Discriminant 0 (R76, R183). -/
def execEvtUnknown0 (s : State) : Answer := s.runUnknown

/-- Discriminant 1 (R76, R183). -/
def execEvtUnknown1 (s : State) : Answer := s.runUnknown

/-- Discriminant 3 (R76, R183). -/
def execEvtUnknown3 (s : State) : Answer := s.runUnknown

/-- Discriminant 4 (R76, R183). -/
def execEvtUnknown4 (s : State) : Answer := s.runUnknown

/-- Discriminant 5 (R76, R183). -/
def execEvtUnknown5 (s : State) : Answer := s.runUnknown

/-- Discriminant 6 (R76, R183). -/
def execEvtUnknown6 (s : State) : Answer := s.runUnknown

/-- Discriminant 7 (R76, R183). -/
def execEvtUnknown7 (s : State) : Answer := s.runUnknown

/-- Discriminant 8 (R76, R183). -/
def execEvtUnknown8 (s : State) : Answer := s.runUnknown

/-- Discriminant 9 (R76, R183). -/
def execEvtUnknown9 (s : State) : Answer := s.runUnknown

/-- Discriminant 10 (R76, R183). -/
def execEvtUnknown10 (s : State) : Answer := s.runUnknown

/-- Discriminant 11 (R76, R183). -/
def execEvtUnknown11 (s : State) : Answer := s.runUnknown

/-- Discriminant 12 (R76, R183). -/
def execEvtUnknown12 (s : State) : Answer := s.runUnknown

/-- Discriminant 13 (R76, R183). -/
def execEvtUnknown13 (s : State) : Answer := s.runUnknown

/-- Discriminant 14 (R76, R183). -/
def execEvtUnknown14 (s : State) : Answer := s.runUnknown

/-- Discriminant 15 (R76, R183). -/
def execEvtUnknown15 (s : State) : Answer := s.runUnknown

end Sys2Proof.Machine
end

