-- ==== Sys2Proof/Machine/Reserved.lean ====
section
/-! DEFINITION. The reserved operations 0x0 and 0x9 to 0xF of the command byte: each is `BAD_COMMAND`, whatever its low
nibble and payload (30_encoding.md R71, R74). -/
namespace Sys2Proof.Machine

/-- `OP` = 0x0 (R74). -/
def execReservedOp0 (_low : BitVec 4) (_payload : Bytes) (s : State) : Answer := s.badCommand

/-- `OP` = 0x9 (R74). -/
def execReservedOp9 (_low : BitVec 4) (_payload : Bytes) (s : State) : Answer := s.badCommand

/-- `OP` = 0xA (R74). -/
def execReservedOpA (_low : BitVec 4) (_payload : Bytes) (s : State) : Answer := s.badCommand

/-- `OP` = 0xB (R74). -/
def execReservedOpB (_low : BitVec 4) (_payload : Bytes) (s : State) : Answer := s.badCommand

/-- `OP` = 0xC (R74). -/
def execReservedOpC (_low : BitVec 4) (_payload : Bytes) (s : State) : Answer := s.badCommand

/-- `OP` = 0xD (R74). -/
def execReservedOpD (_low : BitVec 4) (_payload : Bytes) (s : State) : Answer := s.badCommand

/-- `OP` = 0xE (R74). -/
def execReservedOpE (_low : BitVec 4) (_payload : Bytes) (s : State) : Answer := s.badCommand

/-- `OP` = 0xF (R74). -/
def execReservedOpF (_low : BitVec 4) (_payload : Bytes) (s : State) : Answer := s.badCommand

end Sys2Proof.Machine
end

