-- ==== Sys2Proof/Machine/Session.lean ====
section
/-! DEFINITION. The session and status commands: `BIND`, `RELEASE`, `STATUS` (40_key_derivation.md R104 to R106). -/
namespace Sys2Proof.Machine

/-- `BIND` (R104). A payload not of six bytes is `BAD_COMMAND` (R73, R74); the decoder never yields one (log 11). -/
def execBind (fam : Family) (addr : Bytes) (s : State) : Answer :=
  s.whenLive fun s =>
    if addrOk addr then
      if s.bound then .next (s.raiseFault .sessionActive)
      else
        .next ((s.bindSession (effectiveKey s.keyTable fam addr) (effectiveIv s.keyTable fam addr)).respond .ack)
    else .next (s.raiseFault .badCommand)

/-- `RELEASE` (R105): legal with no session bound. -/
def execRelease (s : State) : Answer := s.whenLive fun s => .next (s.endSession.respond .ack)

/-- `STATUS` (R106): the one command a faulted block executes (R74, R234). -/
def execStatus (s : State) : Answer := .next (s.respond (.status s.statusView))

end Sys2Proof.Machine
end

