-- ==== Sys2Proof/Machine/Dispatch.lean ====
section
/-! DEFINITION. The dispatch: one arm for each instruction. -/
namespace Sys2Proof.Machine

def exec (i : Instr) (s : State) : Host.Outcome State Fault Refusal :=
  match i with
  | .bind fam addr => Sys2Proof.Machine.execBind fam addr s
  | .release => Sys2Proof.Machine.execRelease s
  | .decrypt buf => Sys2Proof.Machine.execDecrypt buf s
  | .decode buf => Sys2Proof.Machine.execDecode buf s
  | .pollDec => Sys2Proof.Machine.execPollDec s
  | .pollEvt => Sys2Proof.Machine.execPollEvt s
  | .poll => Sys2Proof.Machine.execPoll s
  | .status => Sys2Proof.Machine.execStatus s
  | .reservedOp0 low payload => Sys2Proof.Machine.execReservedOp0 low payload s
  | .reservedOp9 low payload => Sys2Proof.Machine.execReservedOp9 low payload s
  | .reservedOpA low payload => Sys2Proof.Machine.execReservedOpA low payload s
  | .reservedOpB low payload => Sys2Proof.Machine.execReservedOpB low payload s
  | .reservedOpC low payload => Sys2Proof.Machine.execReservedOpC low payload s
  | .reservedOpD low payload => Sys2Proof.Machine.execReservedOpD low payload s
  | .reservedOpE low payload => Sys2Proof.Machine.execReservedOpE low payload s
  | .reservedOpF low payload => Sys2Proof.Machine.execReservedOpF low payload s
  | .move serial face prime elapsed => Sys2Proof.Machine.execMove serial face prime elapsed s
  | .evtUnknown0 => Sys2Proof.Machine.execEvtUnknown0 s
  | .evtUnknown1 => Sys2Proof.Machine.execEvtUnknown1 s
  | .evtUnknown3 => Sys2Proof.Machine.execEvtUnknown3 s
  | .evtUnknown4 => Sys2Proof.Machine.execEvtUnknown4 s
  | .evtUnknown5 => Sys2Proof.Machine.execEvtUnknown5 s
  | .evtUnknown6 => Sys2Proof.Machine.execEvtUnknown6 s
  | .evtUnknown7 => Sys2Proof.Machine.execEvtUnknown7 s
  | .evtUnknown8 => Sys2Proof.Machine.execEvtUnknown8 s
  | .evtUnknown9 => Sys2Proof.Machine.execEvtUnknown9 s
  | .evtUnknown10 => Sys2Proof.Machine.execEvtUnknown10 s
  | .evtUnknown11 => Sys2Proof.Machine.execEvtUnknown11 s
  | .evtUnknown12 => Sys2Proof.Machine.execEvtUnknown12 s
  | .evtUnknown13 => Sys2Proof.Machine.execEvtUnknown13 s
  | .evtUnknown14 => Sys2Proof.Machine.execEvtUnknown14 s
  | .evtUnknown15 => Sys2Proof.Machine.execEvtUnknown15 s

end Sys2Proof.Machine
end

