-- ==== Sys2Proof/Machine/Fetch.lean ====
section
/-! DEFINITION. What the machine does next: the record at the decoder, or the next input of the host, and what a
rejected one does (30_encoding.md R70, R74; 43_decode.md R184, R187). -/
namespace Sys2Proof.Machine

/-- What the machine finds to do. -/
inductive Fetched where
  /-- nothing is pending: the block waits (70 R260) -/
  | idle
  /-- the external reset event -/
  | reset (s : State)
  /-- an instruction, and the state with its input taken -/
  | instr (i : Instr) (s : State)
  /-- a command or record with no row in the table, by name -/
  | reject (e : DecodeError) (s : State)

/-- A decoded instruction, or the name it is rejected by. -/
def Fetched.ofDecoded (r : Except DecodeError Instr) (s : State) : Fetched :=
  match r with
  | .ok i => .instr i s
  | .error e => .reject e s

/-- The next thing to do. A working buffer is there only while a command is in progress, so it comes first (R57, log 6);
then the oldest input of the host (R61). -/
def fetch (s : State) : Fetched :=
  match s.work with
  | some w => .ofDecoded (Sys2Proof.decode .record w.bytes) s
  | none =>
    match s.inbox with
    | [] => .idle
    | .reset :: rest => .reset { s with inbox := rest }
    | .command cmd payload :: rest => .ofDecoded (Sys2Proof.decode .command (cmd :: payload)) { s with inbox := rest }

/-- A record with no row in the table: too short, so `Err(InvalidLength)` (R184, R187). -/
def State.invalidLength (s : State) : Answer := s.runRecord (.result (.err .invalidLength))

/-- A rejected command is `BAD_COMMAND`, a rejected record `Err(InvalidLength)` (R74, R184, R187). -/
def rejected (e : DecodeError) (s : State) : Answer :=
  match e with
  | .noCommandByte => s.badCommand
  | .reservedBits => s.badCommand
  | .famBit => s.badCommand
  | .bindLength => s.badCommand
  | .payloadNotEmpty => s.badCommand
  | .emptyRecord => s.invalidLength
  | .shortMove => s.invalidLength

/-- An instruction placed where the next fetch finds it: a command at the head of the inbox, a record in the working
buffer, owned by `DECODE` (log 7). -/
def State.place (s : State) (sp : Space) (bs : Bytes) : State :=
  match sp with
  | .record => s.own .decode bs
  | .command =>
    match bs with
    | [] => s
    | cmd :: payload => { s with work := none, inbox := .command cmd payload :: s.inbox }

end Sys2Proof.Machine
end

