-- ==== Sys2Proof/Machine/Step.lean ====
section
/-! DEFINITION. One step of the machine: one command, one reset event, or a wait (30_encoding.md R74, 70 R260, R271). -/
namespace Sys2Proof.Machine

/-- One step: what `fetch` finds is done. -/
def step (s : State) : Host.Outcome State Fault Refusal :=
  match fetch s with
  | .idle => .next s
  | .reset s' => .next s'.resetBlock
  | .instr i s' => exec i s'
  | .reject e s' => rejected e s'

/-- `s` with the instruction of a word of the opcode table where the next step fetches it (log 7). -/
def State.withFetchWord (s : State) (nbits w : Nat) : State :=
  s.place (Sys2Proof.tableWord nbits w).1 (Sys2Proof.tableWord nbits w).2

end Sys2Proof.Machine
end

