-- ==== Sys2Proof/Safety.lean ====
section
/-! DEFINITION. The terms claims are stated in: a live block, a buffer within the length bound, the machine's invariant,
the shapes R74 calls bad, the fields of a result word (R82), and the premise `UPSTREAM_FUSED` (10_state.md R31). -/
namespace Sys2Proof.Machine

/-- No fault is pending (60_exceptions.md R234). -/
def State.Live (s : State) : Prop := s.fault = 0#4

/-- The buffer is within `MAX_BUF_LEN` (R134). -/
def State.Fits (s : State) (buf : Bytes) : Prop := ∀ m, s.maxBufLen = some m → buf.length ≤ m

/-- A bound session with its key and IV (R23 to R25). -/
def State.Session (s : State) (K V : Block) : Prop := s.bound = true ∧ s.effKey = some K ∧ s.effIv = some V

/-- What holds of the block between commands. -/
structure State.Inv (s : State) : Prop where
  /-- `EFF_KEY` has a value exactly while a session is bound (R23, R33). -/
  key : s.bound = s.effKey.isSome
  /-- `EFF_IV` has a value exactly while a session is bound (R23, R33). -/
  iv : s.bound = s.effIv.isSome
  /-- `FAULT` codes 7 to 15 are never written (R26). -/
  code : s.fault.toNat ≤ 6
  /-- `MAX_BUF_LEN` is at least 17 where finite (R5). -/
  bound17 : ∀ m, s.maxBufLen = some m → 17 ≤ m
  /-- No working buffer survives its command (R50). -/
  idle : s.work = none
  /-- At most the item of a fault was taken and not delivered (R214). -/
  taken : s.itemsOut ≤ s.upTaken ∧ s.upTaken ≤ s.itemsOut + 1
  /-- Without a fault every item taken was delivered (R166, R214). -/
  count : s.fault = 0#4 → s.upTaken = s.itemsOut

/-- The commands R74 answers with `BAD_COMMAND`, by the numbers of their bits: the operation is `cmd / 16`, the reserved
bits `cmd / 2 % 8`, and `FAM` is `cmd % 2` (R70). -/
def BadCommand (cmd : Byte) (payload : Bytes) : Prop :=
  cmd.toNat / 16 = 0 ∨ 9 ≤ cmd.toNat / 16 ∨ cmd.toNat / 2 % 8 ≠ 0 ∨ (cmd.toNat / 16 ≠ 1 ∧ cmd.toNat % 2 ≠ 0) ∨
    (cmd.toNat / 16 = 1 ∧ payload.length ≠ 6) ∨ (cmd.toNat / 16 ∈ [2, 5, 6, 7, 8] ∧ payload.length ≠ 0)

/-- The fields of a result word that packs an event (R82). -/
def EventWord (w : BitVec 32) (serial : Byte) (face : BitVec 4) (prime : Bool) (elapsed : BitVec 16) : Prop :=
  w.extractLsb' 0 2 = 0#2 ∧ w.extractLsb' 2 2 = 0#2 ∧ (w.extractLsb' 4 3).toNat = face.toNat ∧
    w.getLsbD 7 = prime ∧ w.extractLsb' 8 8 = serial ∧ w.extractLsb' 16 16 = elapsed

/-- The word delivered by the decoder for the command it runs for: `RESULT` for `DECODE`, a counted `ITEM_RESULT` for a
poll (R80, R189, R210). -/
def State.delivered (s : State) (w : BitVec 32) : State :=
  if s.owner = .decode then { s with work := none, out := .result w :: s.out }
  else { s with work := none, itemsOut := s.itemsOut + 1, out := .itemResult w :: s.out }

/-- The instructions that decrypt (R24: the readers of `EFF_KEY`). -/
def Decrypts (i : Instr) : Prop := (∃ buf, i = .decrypt buf) ∨ i = .pollDec ∨ i = .poll

/-- The instructions that pull from upstream (R81). -/
def Polls (i : Instr) : Prop := i = .pollDec ∨ i = .pollEvt ∨ i = .poll

/-- The instructions that write the session (R23 to R25). -/
def WritesSession (i : Instr) : Prop := (∃ f addr, i = .bind f addr) ∨ i = .release

/-- The answer to pull number `n` from here: the script's, then the free draws (R31, log 3). -/
def State.answerAt (s : State) (n : Nat) : UpAnswer :=
  if h : n < s.upstream.length then s.upstream[n] else Config.upstreamAnswer (s.draws + (n - s.upstream.length))

/-- `UPSTREAM_FUSED` over the next `k` pulls: once `Exhausted`, it stays so (R31, decision D15). -/
def State.FusedFor (s : State) (k : Nat) : Prop :=
  ∀ n m, n ≤ m → m < k → s.answerAt n = .exhausted → s.answerAt m = .exhausted

end Sys2Proof.Machine
end

