-- ==== Sys2Proof/Certificates/Slice0/Obligations.lean ====
section
/-! DEFINITION. The statements about the model, one definition each. A completion statement gives the whole next state
as an update of the state before, so it says what is left unchanged too. -/

open Sys2Proof Sys2Proof.Machine

/-! ## Encodings -/

/-- Decoding an encoded well-formed instruction gives it back, with every operand at every value (30_encoding.md
section 1 and section 3). -/
def Obligations.DecodeInvertsEncode : Prop :=
  ∀ i : Instr, i.wf = true → decode i.space (encode i) = .ok i

/-- A command byte and payload that decode to an instruction are exactly its encoding, and it is well formed: no two
commands share a meaning (30_encoding.md section 1). -/
def Obligations.CommandBytesDetermined : Prop :=
  ∀ (cmd : Byte) (payload : Bytes) (i : Instr), decodeCommand cmd payload = .ok i →
    encode i = cmd :: payload ∧ i.wf = true ∧ i.space = .command

/-- R7: a stream bit is bit `7 - i mod 8` of byte `i div 8`, and a range of bits is the big-endian number whose most
significant bit is the first read. -/
def Obligations.StreamBitsBigEndian : Prop :=
  (∀ (buf : Bytes) (i : Nat) (h : i < 8 * buf.length),
    (sbit buf i).toNat = (buf[i / 8].toNat >>> (7 - i % 8)) % 2) ∧
  ∀ (buf : Bytes) (lo w : Nat),
    (sbits buf lo w).toNat = ∑ k ∈ Finset.range w, (sbit buf (lo + k)).toNat * 2 ^ (w - 1 - k)

/-- The fields of a record of at least 8 bytes, as byte arithmetic (30_encoding.md section 3, its derived "Field
extraction as byte arithmetic"). -/
def Obligations.FieldsAsByteArithmetic : Prop :=
  ∀ (b0 b1 b2 b3 b4 b5 b6 b7 : Byte) (rest : Bytes),
    let b : Bytes := b0 :: b1 :: b2 :: b3 :: b4 :: b5 :: b6 :: b7 :: rest
    (sbits b 0 4).toNat = b0.toNat / 16 ∧
    (sbits b 4 8).toNat = b0.toNat % 16 * 16 + b1.toNat / 16 ∧
    (sbits b 12 4).toNat = b1.toNat % 16 ∧
    (sbit b 16).toNat = b2.toNat / 128 ∧
    (sbits b 47 16).toNat = (b5.toNat * 65536 + b6.toNat * 256 + b7.toNat) / 2 % 65536

/-- R77: the bits `[17,47)`, bit 63 and the bytes from 8 up of a move record are never validated, and every length of
8 bytes or more is accepted: buffers that agree on bits `[0,17)` and `[47,63)` decode alike. -/
def Obligations.ReservedBitsNeverMatter : Prop :=
  ∀ b b' : Bytes, 8 ≤ b.length → 8 ≤ b'.length → sbits b 0 4 = 2#4 → (∀ k, k < 17 → sbit b k = sbit b' k) →
    (∀ k, 47 ≤ k → k < 63 → sbit b k = sbit b' k) →
    decodeEvent b = decodeEvent b' ∧
    decodeRecord b' = .ok (.move (sbits b 4 8) (sbits b 12 4) (sbit b 16) (sbits b 47 16))

/-- Words written out from the encoding tables decode to the instructions they stand for. -/
def Obligations.SampleWordsDecode : Prop :=
  decodeCommand 0x11#8 [0xAB#8, 0xCD#8, 0xEF#8, 0x12#8, 0x34#8, 0x56#8] =
      .ok (.bind .fam1 [0xAB#8, 0xCD#8, 0xEF#8, 0x12#8, 0x34#8, 0x56#8]) ∧
  decodeCommand 0x30#8 [0x01#8] = .ok (.decrypt [0x01#8]) ∧
  decodeCommand 0x60#8 [] = .ok .pollEvt ∧
  decodeCommand 0x80#8 [] = .ok .status ∧
  decodeCommand 0x9A#8 [0x01#8] = .ok (.reservedOp9 0xA#4 [0x01#8]) ∧
  decodeRecord [0x2F#8, 0xF5#8, 0x80#8, 0x00#8, 0x00#8, 0x01#8, 0xFF#8, 0xFE#8] =
      .ok (.move 0xFF#8 0x5#4 true 0xFFFF#16) ∧
  decodeRecord [0x70#8] = .ok .evtUnknown7

/-! ## The step -/

/-- When the oldest input is a command that decodes to an instruction, that instruction is well formed and the step is
exec of it at the state with the input taken (with no working buffer, as holds between commands). When the decoder
holds a buffer that decodes to a record, the step is exec of that record at that state (model's form: logs 4 and 6).
-/
def Obligations.StepRunsDecodedInstruction : Prop :=
  (∀ (s : State) (cmd : Byte) (payload : Bytes) (rest : List HostInput) (i : Instr),
    s.work = none → s.inbox = .command cmd payload :: rest → decode .command (cmd :: payload) = .ok i →
    i.wf = true ∧ step s = exec i { s with inbox := rest }) ∧
  ∀ (s : State) (w : WorkBuf) (i : Instr), s.work = some w → decode .record w.bytes = .ok i →
    i.wf = true ∧ step s = exec i s

/-- With no working buffer and no input the step changes nothing: the block waits (70_reset_and_hazards.md section 1;
the idle step is the model's form, log 4). A buffer too short for a record is delivered as `InvalidLength`, and its
step is no exec (43_decode.md section 2; model's form, log 6). -/
def Obligations.StepWaitsAndRejects : Prop :=
  (∀ s : State, s.work = none → s.inbox = [] → step s = .next s) ∧
  ∀ (s : State) (w : WorkBuf), s.Live → s.work = some w →
    (w.bytes = [] ∨ (sbits w.bytes 0 4 = 2#4 ∧ w.bytes.length < 8)) → step s = .next (s.delivered 1#32)

/-- The dispatch is total (30_encoding.md section 1, decision D25). A bad command is `BAD_COMMAND` and changes nothing
else; any other runs the operation its high nibble names, with its family bit and its payload. -/
def Obligations.DispatchIsTotal : Prop :=
  ∀ (s : State) (cmd : Byte) (payload : Bytes) (rest : List HostInput),
    s.Live → s.work = none → s.inbox = .command cmd payload :: rest →
    (BadCommand cmd payload →
      step s = .next { s with inbox := rest, fault := 5#4, out := .faulted 5#4 :: s.out }) ∧
    (¬ BadCommand cmd payload →
      (cmd.toNat / 16 = 1 →
        step s = exec (.bind (if cmd.toNat % 2 = 1 then .fam1 else .fam0) payload) { s with inbox := rest }) ∧
      (cmd.toNat / 16 = 2 → step s = exec .release { s with inbox := rest }) ∧
      (cmd.toNat / 16 = 3 → step s = exec (.decrypt payload) { s with inbox := rest }) ∧
      (cmd.toNat / 16 = 4 → step s = exec (.decode payload) { s with inbox := rest }) ∧
      (cmd.toNat / 16 = 5 → step s = exec .pollDec { s with inbox := rest }) ∧
      (cmd.toNat / 16 = 6 → step s = exec .pollEvt { s with inbox := rest }) ∧
      (cmd.toNat / 16 = 7 → step s = exec .poll { s with inbox := rest }) ∧
      (cmd.toNat / 16 = 8 → step s = exec .status { s with inbox := rest }))

/-- The reset event sets every element to its reset value, gives no response, makes no pull, and leaves the key table
and the upstream as they are (70_reset_and_hazards.md section 1, decision D18). -/
def Obligations.ResetEventRestores : Prop :=
  ∀ (s : State) (rest : List HostInput), s.work = none → s.inbox = .reset :: rest →
    step s = .next { s with inbox := rest, bound := false, effKey := none, effIv := none, fault := 0#4, upTaken := 0,
                            itemsOut := 0 }

/-- The state after reset: no session, key and IV without a value, no fault, no working buffer, counters 0
(10_state.md section 7, decision D18). The environment fields are not stated: they are the model's (logs 3 to 5). -/
def Obligations.ResetStateValues : Prop :=
  State.reset.bound = false ∧ State.reset.effKey = none ∧ State.reset.effIv = none ∧ State.reset.fault = 0#4 ∧
    State.reset.work = none ∧ State.reset.upTaken = 0 ∧ State.reset.itemsOut = 0 ∧
    State.reset.keyTable = Config.keyTable ∧ State.reset.maxBufLen = Config.maxBufLen

/-! ## Session commands and key derivation -/

/-- The salt is the address reversed; lanes 0 to 5 are the sum modulo 255, bytes 6 to 15 are the base; with the corner
cases the spec derives there (its mark "derived: from this rule"): a lane is never 0xFF, the values at the corners, a
salt byte 0xFF acts as 0x00; and each lane depends on its own two bytes (40_key_derivation.md section 2). -/
def Obligations.SaltLanesModulo255 : Prop :=
  (∀ addr : Bytes, addr.length = 6 →
    (saltOf addr).length = 6 ∧ ∀ i, i < 6 → (saltOf addr).getD i 0#8 = addr.getD (5 - i) 0#8) ∧
  (∀ (base : Block) (salt : Bytes), salt.length = 6 →
    (∀ i, i < 6 → ((salt16 base salt).get i).toNat = ((base.get i).toNat + (salt.getD i 0#8).toNat) % 255 ∧
      (salt16 base salt).get i ≠ 0xFF#8) ∧
    ∀ i, 6 ≤ i → i < 16 → (salt16 base salt).get i = base.get i) ∧
  saltByte 0xFF#8 0x00#8 = 0x00#8 ∧ saltByte 0xFF#8 0xFF#8 = 0x00#8 ∧ saltByte 0x80#8 0x80#8 = 0x01#8 ∧
  (∀ b : Byte, saltByte b 0xFF#8 = saltByte b 0x00#8) ∧
  ∀ (base base' : Block) (salt salt' : Bytes) (i : Nat), i < 6 → base.get i = base'.get i →
    salt.getD i 0#8 = salt'.getD i 0#8 → (salt16 base salt).get i = (salt16 base' salt').get i

/-- `BIND` completes with no session bound: key and IV are derived lane by lane from the base pair of its family (entry
0 of the key table for family 0, entry 1 for family 1) and the reversed address, `BOUND` is 1, the answer is `ACK`, and
nothing else changes (10_state.md section 2, 40_key_derivation.md sections 1 to 3). -/
def Obligations.BindDerivesSession : Prop :=
  ∀ (f : Family) (addr : Bytes) (s : State), s.Live → s.bound = false → addr.length = 6 →
    let base : KeyPair := if f = .fam0 then s.keyTable.fam0 else s.keyTable.fam1
    ∃ K V : Block,
      exec (.bind f addr) s =
        .next { s with effKey := some K, effIv := some V, bound := true, work := none, out := .ack :: s.out } ∧
      (∀ i, i < 6 →
        (K.get i).toNat = ((base.key.get i).toNat + (addr.getD (5 - i) 0#8).toNat) % 255 ∧
        (V.get i).toNat = ((base.iv.get i).toNat + (addr.getD (5 - i) 0#8).toNat) % 255) ∧
      ∀ i, 6 ≤ i → i < 16 → K.get i = base.key.get i ∧ V.get i = base.iv.get i

/-- `BIND` with a session bound is `SESSION_ACTIVE`, and the session keeps its key and IV (40_key_derivation.md
section 3, decision D13). An address not of six bytes is `BAD_COMMAND` (30_encoding.md section 1, decision D25). -/
def Obligations.BindRefusals : Prop :=
  ∀ (f : Family) (addr : Bytes) (s : State), s.Live →
    (addr.length = 6 → s.bound = true →
      exec (.bind f addr) s = .next { s with fault := 4#4, work := none, out := .faulted 4#4 :: s.out }) ∧
    (addr.length ≠ 6 →
      exec (.bind f addr) s = .next { s with fault := 5#4, work := none, out := .faulted 5#4 :: s.out })

/-- `RELEASE` completes, bound or not: `BOUND` is 0, key and IV have no value, the answer is `ACK`
(40_key_derivation.md section 3, decision D14). -/
def Obligations.ReleaseEndsSession : Prop :=
  ∀ s : State, s.Live →
    exec .release s =
      .next { s with bound := false, effKey := none, effIv := none, work := none, out := .ack :: s.out } ∧
    (s.bound = false → s.effKey = none → s.effIv = none → s.work = none →
      exec .release s = .next { s with out := .ack :: s.out })

/-- `STATUS` completes in every state, a faulted one too: bit 0 is `BOUND`, bits [3:1] are 0, bits [7:4] are `FAULT`,
and no state is written (40_key_derivation.md section 3, decision D28). -/
def Obligations.StatusShowsBoundAndFault : Prop :=
  ∀ s : State, ∃ view : Byte,
    exec .status s = .next { s with work := none, out := .status view :: s.out } ∧
    view.getLsbD 0 = s.bound ∧ view.extractLsb' 1 3 = 0#3 ∧ view.extractLsb' 4 4 = s.fault

/-! ## Decryption -/

/-- R133: for more than 16 bytes, the last 16 bytes are decrypted and written, then the first 16 of that are; the
length stays, and every byte strictly between offset 16 and `len - 16` is untouched. -/
def Obligations.DecryptTwoEndedInPlace : Prop :=
  ∀ (K V : Block) (buf : Bytes), 16 < buf.length →
    let mid := buf.take (buf.length - 16) ++ (decryptBlock K V (Block.ofList (buf.drop (buf.length - 16)))).toList
    decryptBuf K V buf = (decryptBlock K V (Block.ofList (mid.take 16))).toList ++ mid.drop 16 ∧
    (decryptBuf K V buf).length = buf.length ∧
    ∀ i, 16 ≤ i → i < buf.length - 16 → (decryptBuf K V buf).getD i 0#8 = buf.getD i 0#8

/-- From 32 bytes on, the two blocks are decrypted each from the original ciphertext with the same key and IV, the
middle is copied (41_block_decrypt.md section 3, its derived overlap cases). -/
def Obligations.DecryptDisjointBlocks : Prop :=
  ∀ (K V : Block) (buf : Bytes), 32 ≤ buf.length →
    decryptBuf K V buf =
      (decryptBlock K V (Block.ofList (buf.take 16))).toList ++ (buf.drop 16).take (buf.length - 32) ++
        (decryptBlock K V (Block.ofList (buf.drop (buf.length - 16)))).toList

/-- The last block of a buffer of at least 32 bytes agrees with a whole-buffer chained decryption exactly where the
ciphertext block before it equals the IV (41_block_decrypt.md section 2, derived). -/
def Obligations.NotAChainedDecryption : Prop :=
  ∀ (K V : Block) (buf : Bytes), 32 ≤ buf.length →
    let prev := Block.ofList ((buf.drop (buf.length - 32)).take 16)
    (decryptBuf K V buf).drop (buf.length - 16) =
        ((invCipher K (Block.ofList (buf.drop (buf.length - 16)))).xor prev).toList ↔ prev = V

/-- `DECRYPT` completes for a bound session and a buffer of more than 16 bytes within the bound, whatever its bytes:
it answers the decrypted buffer and writes no state (41_block_decrypt.md section 3). -/
def Obligations.DecryptCompletes : Prop :=
  ∀ (buf : Bytes) (s : State) (K V : Block), s.Live → s.Session K V → s.Fits buf → 16 < buf.length →
    exec (.decrypt buf) s = .next { s with work := none, out := .buffer (decryptBuf K V buf) :: s.out }

/-- The faults of `DECRYPT`, in their order, each with nothing else changed (41_block_decrypt.md section 3,
60_exceptions.md section 3, decisions D7, D12, D19). -/
def Obligations.DecryptFaultOrder : Prop :=
  ∀ (buf : Bytes) (s : State), s.Live →
    (s.bound = false →
      exec (.decrypt buf) s = .next { s with fault := 3#4, work := none, out := .faulted 3#4 :: s.out }) ∧
    (s.bound = true → ¬ s.Fits buf →
      exec (.decrypt buf) s = .next { s with fault := 6#4, work := none, out := .faulted 6#4 :: s.out }) ∧
    (s.bound = true → s.Fits buf → buf.length ≤ 16 →
      exec (.decrypt buf) s = .next { s with fault := 1#4, work := none, out := .faulted 1#4 :: s.out })

/-- The four-byte words of the key schedule obey the recurrence of the key expansion for every `i` in 4..43, word `i`
being column `i mod 4` of round key `i / 4` (41_block_decrypt.md section 1, from general knowledge). -/
def Obligations.KeyScheduleRecurrence : Prop :=
  ∀ (k : Block),
    let w : Nat → Column := fun i =>
      match i % 4 with
      | 0 => (roundKey k (i / 4)).c0
      | 1 => (roundKey k (i / 4)).c1
      | 2 => (roundKey k (i / 4)).c2
      | _ => (roundKey k (i / 4)).c3
    (w 0 = k.c0 ∧ w 1 = k.c1 ∧ w 2 = k.c2 ∧ w 3 = k.c3) ∧
    ∀ i, 4 ≤ i → i ≤ 43 →
      w i = (w (i - 4)).xor (if i % 4 = 0 then
        { r0 := sbox (w (i - 1)).r1 ^^^ rcon (i / 4), r1 := sbox (w (i - 1)).r2, r2 := sbox (w (i - 1)).r3,
          r3 := sbox (w (i - 1)).r0 } else w (i - 1))

/-- The S-box table is the affine image of the field inverse, 0 going to 0, and the inverse table undoes it
(41_block_decrypt.md section 1, from general knowledge). -/
def Obligations.SboxTablesAlgebraic : Prop :=
  (∀ x y : Byte, (gmul x y = 1#8 ∨ (x = 0#8 ∧ y = 0#8)) → ∀ i, i < 8 →
    (sbox x).getLsbD i = (y.getLsbD i ^^ y.getLsbD ((i + 4) % 8) ^^ y.getLsbD ((i + 5) % 8) ^^
      y.getLsbD ((i + 6) % 8) ^^ y.getLsbD ((i + 7) % 8) ^^ (0x63#8).getLsbD i)) ∧
  (∀ x : Byte, invSbox (sbox x) = x) ∧ ∀ x : Byte, sbox (invSbox x) = x

/-- The inverse cipher undoes the forward cipher, for every key and block (41_block_decrypt.md section 1, from general
knowledge). -/
def Obligations.InverseCipherUndoesCipher : Prop :=
  ∀ k p : Block, invCipher k (cipher k p) = p

/-- Decrypting what the device side encrypts gives the plaintext back, for every length above 16, the overlapping ones
too (41_block_decrypt.md section 3, its derived round trip). -/
def Obligations.DecryptUndoesEncrypt : Prop :=
  ∀ (K V : Block) (p : Bytes), 16 < p.length → decryptBuf K V (encryptBuf K V p) = p

/-! ## Decoding -/

/-- R183 and R184: for a buffer of at least one byte whose discriminant is not 2, whatever its length, the decoder
answers `UnknownEventType`. A type-2 buffer must hold 63 bits, that is 8 bytes: with 1 to 7 bytes it is
`InvalidLength`, with 8 or more it never is. Bit 63 and what follows it are never read. -/
def Obligations.DiscriminantThenLength : Prop :=
  (∀ buf : Bytes, buf ≠ [] →
    (sbits buf 0 4 ≠ 2#4 → decodeEvent buf = .result (.err .unknownEventType)) ∧
    (sbits buf 0 4 = 2#4 →
      (63 ≤ 8 * buf.length ↔ 8 ≤ buf.length) ∧ (decodeEvent buf = .result (.err .invalidLength) ↔ buf.length < 8))) ∧
  ∀ b b' : Bytes, 8 ≤ b.length → 8 ≤ b'.length → (∀ k, k < 63 → sbit b k = sbit b' k) → decodeEvent b = decodeEvent b'

/-- R181 and R185: the event of a move record holds the stream bits `[4,12)`, the face of code `[12,16)` in the order
U, R, F, D, L, B, bit 16 and bits `[47,63)`, each unsigned, and no other bits. -/
def Obligations.MoveFieldsExtracted : Prop :=
  (faceOfCode 0#4 = some .U ∧ faceOfCode 1#4 = some .R ∧ faceOfCode 2#4 = some .F ∧ faceOfCode 3#4 = some .D ∧
    faceOfCode 4#4 = some .L ∧ faceOfCode 5#4 = some .B ∧ ∀ f : Face, ∃ c : BitVec 4,
      c.toNat ≤ 5 ∧ faceOfCode c = some f) ∧
  (∀ (buf : Bytes) (ev : Event), decodeEvent buf = .result (.ok ev) →
    ev.serial = sbits buf 4 8 ∧ faceOfCode (sbits buf 12 4) = some ev.face ∧ ev.prime = sbit buf 16 ∧
      ev.elapsed = sbits buf 47 16) ∧
  ∀ b b' : Bytes, 8 ≤ b.length → 8 ≤ b'.length → sbits b 0 4 = 2#4 → sbits b' 0 4 = 2#4 →
    sbits b 4 8 = sbits b' 4 8 → sbits b 12 4 = sbits b' 12 4 → sbit b 16 = sbit b' 16 →
    sbits b 47 16 = sbits b' 47 16 → decodeEvent b = decodeEvent b'

/-- `DECODE` completes on a move record with a face code of 0 to 5, with or without a session: the answer is the
result word that holds the four fields (43_decode.md section 3, decisions D17 and D29). -/
def Obligations.DecodeMoveCompletes : Prop :=
  ∀ (buf : Bytes) (s : State), s.Live → s.Fits buf → 8 ≤ buf.length → sbits buf 0 4 = 2#4 →
    (sbits buf 12 4).toNat ≤ 5 →
    ∃ w : BitVec 32, exec (.decode buf) s = .next { s with work := none, out := .result w :: s.out } ∧
      EventWord w (sbits buf 4 8) (sbits buf 12 4) (sbit buf 16) (sbits buf 47 16)

/-- The decode failures are answers of `DECODE`, not faults: 2 for another discriminant, 1 for a short move record and
for the empty buffer (43_decode.md sections 2 and 3, decisions D10 and D17). -/
def Obligations.DecodeFailuresAreResults : Prop :=
  ∀ (buf : Bytes) (s : State), s.Live → s.Fits buf →
    (buf ≠ [] → sbits buf 0 4 ≠ 2#4 →
      exec (.decode buf) s = .next { s with work := none, out := .result 2#32 :: s.out }) ∧
    (buf ≠ [] → sbits buf 0 4 = 2#4 → buf.length < 8 →
      exec (.decode buf) s = .next { s with work := none, out := .result 1#32 :: s.out }) ∧
    (buf = [] → exec (.decode buf) s = .next { s with work := none, out := .result 1#32 :: s.out })

/-- The faults of `DECODE`: a buffer too long, then a face code of 6 to 15 (43_decode.md section 3, decisions D9,
D19). -/
def Obligations.DecodeFaultOrder : Prop :=
  ∀ (buf : Bytes) (s : State), s.Live →
    (¬ s.Fits buf →
      exec (.decode buf) s = .next { s with fault := 6#4, work := none, out := .faulted 6#4 :: s.out }) ∧
    (s.Fits buf → 8 ≤ buf.length → sbits buf 0 4 = 2#4 → 6 ≤ (sbits buf 12 4).toNat →
      exec (.decode buf) s = .next { s with fault := 2#4, work := none, out := .faulted 2#4 :: s.out })

/-- The record instructions are the decoder's part of the commands: `DECODE`, and `POLL_EVT` after its pull, run
exactly the record their buffer decodes to (30_encoding.md section 3; the record at the decoder is the model's form,
log 6). -/
def Obligations.CommandsRunTheirRecord : Prop :=
  ∀ (buf : Bytes) (s : State) (i : Instr), s.Live → s.Fits buf → decodeRecord buf = .ok i →
    exec (.decode buf) s = exec i (s.own .decode buf) ∧
    (s.pull.1 = .ready buf →
      exec .pollEvt s =
        exec i { s.pull.2 with upTaken := s.upTaken + 1, work := some { owner := .pollEvt, bytes := buf } })

/-- The move record completes for a face code of 0 to 5: its result word goes to the command the decoder runs for.
With a code of 6 to 15 it is `FACE_CODE_RANGE`, and no item is delivered (43_decode.md section 2, decision D9; which
response, model's form, log 6). -/
def Obligations.MoveRecordOutcomes : Prop :=
  ∀ (serial : Byte) (face : BitVec 4) (prime : Bool) (elapsed : BitVec 16) (s : State), s.Live →
    (face.toNat ≤ 5 →
      ∃ w : BitVec 32, exec (.move serial face prime elapsed) s = .next (s.delivered w) ∧
        EventWord w serial face prime elapsed) ∧
    (6 ≤ face.toNat →
      exec (.move serial face prime elapsed) s =
        .next { s with fault := 2#4, work := none, out := .faulted 2#4 :: s.out })

/-- Each of the fifteen records with another discriminant completes with the word of `UnknownEventType`, delivered to
the command the decoder runs for (43_decode.md section 2; which response, model's form, log 6). -/
def Obligations.UnknownRecordsComplete : Prop :=
  ∀ s : State, s.Live → ∀ i ∈ [Instr.evtUnknown0, .evtUnknown1, .evtUnknown3, .evtUnknown4, .evtUnknown5, .evtUnknown6,
    .evtUnknown7, .evtUnknown8, .evtUnknown9, .evtUnknown10, .evtUnknown11, .evtUnknown12, .evtUnknown13, .evtUnknown14,
    .evtUnknown15], exec i s = .next (s.delivered 2#32)

/-- `Pack` is one-to-one; its tag is 0 for an event, 1 and 2 for the failures, never 3; bits [3:2] are 0, and a
failure word has no other bit (30_encoding.md section 2, 43_decode.md section 3, decision D17). -/
def Obligations.PackIsOneToOne : Prop :=
  (∀ r r' : EventResult, pack r = pack r' → r = r') ∧
  ∀ r : EventResult, (pack r).extractLsb' 2 2 = 0#2 ∧ (pack r).extractLsb' 0 2 ≠ 3#2 ∧
    ((pack r).extractLsb' 0 2 = 0#2 ↔ ∃ ev, r = .ok ev) ∧
    ((pack r).extractLsb' 0 2 ≠ 0#2 → (pack r).extractLsb' 2 30 = 0#30)

/-- The derived command: the face, and +1 unless prime is set, in which case -1; as bits 01 and 11 (43_decode.md
section 1, decision D31). -/
def Obligations.DirectionFollowsPrime : Prop :=
  ∀ ev : Event, ev.command = (ev.face, if ev.prime then -1 else 1) ∧ ev.dir = if ev.prime then 0b11#2 else 0b01#2

/-! ## Polls -/

/-- One pull: the script's oldest answer, else the next free draw; nothing else of the state changes (10_state.md
section 5; script and draws are the model's form, log 3). -/
def Obligations.PullTakesOneAnswer : Prop :=
  ∀ s : State,
    (∀ a rest, s.upstream = a :: rest → s.pull = (a, { s with upstream := rest })) ∧
    (s.upstream = [] → s.pull = (Config.upstreamAnswer s.draws, { s with draws := s.draws + 1 }))

/-- The three polls pass `NotReady` and `Exhausted` on and change no state of the block, so exhaustion is not latched
(42_decrypt_transform.md, 44_decode_transform.md, decision D15). `POLL_EVT` needs no session (decision D29). -/
def Obligations.QuietAnswersPassThrough : Prop :=
  ∀ (s : State) (a : UpAnswer) (r : Response), s.Live → s.pull.1 = a →
    (a = .notReady ∧ r = .notReady ∨ a = .exhausted ∧ r = .exhausted) →
    ∀ i, i = Instr.pollEvt ∨ (s.bound = true ∧ (i = .pollDec ∨ i = .poll)) →
      exec i s = .next { s with upstream := s.pull.2.upstream, draws := s.pull.2.draws, work := none,
                                out := r :: s.out }

/-- `POLL_DEC` and `POLL` with no session are `NO_SESSION`, before any pull (42_decrypt_transform.md,
44_decode_transform.md, decision D12). -/
def Obligations.PollsNeedSession : Prop :=
  ∀ (s : State) (i : Instr), s.Live → s.bound = false → i = .pollDec ∨ i = .poll →
    exec i s = .next { s with fault := 3#4, work := none, out := .faulted 3#4 :: s.out }

/-- `POLL_DEC` completes on an item of more than 16 bytes within the bound, whatever its content: it is counted,
decrypted and delivered (42_decrypt_transform.md). -/
def Obligations.PollDecDeliversItem : Prop :=
  ∀ (buf : Bytes) (s : State) (K V : Block), s.Live → s.Session K V → s.pull.1 = .ready buf → s.Fits buf →
    16 < buf.length →
    exec .pollDec s =
      .next { s.pull.2 with upTaken := s.upTaken + 1, itemsOut := s.itemsOut + 1, work := none,
                            out := .itemBuffer (decryptBuf K V buf) :: s.out }

/-- `POLL_EVT` completes on an item the decoder has a result for, a failure too, with or without a session: the result
is delivered as an item and the block goes on (44_decode_transform.md). -/
def Obligations.PollEvtDeliversItem : Prop :=
  ∀ (buf : Bytes) (s : State) (r : EventResult), s.Live → s.pull.1 = .ready buf → s.Fits buf →
    decodeEvent buf = .result r →
    exec .pollEvt s =
      .next { s.pull.2 with upTaken := s.upTaken + 1, itemsOut := s.itemsOut + 1, work := none,
                            out := .itemResult (pack r) :: s.out }

/-- `POLL` completes on an item of more than 16 bytes within the bound whose plaintext the decoder has a result for:
the result of the decrypted item is delivered (44_decode_transform.md). -/
def Obligations.PollDeliversItem : Prop :=
  ∀ (buf : Bytes) (s : State) (K V : Block) (r : EventResult), s.Live → s.Session K V → s.pull.1 = .ready buf →
    s.Fits buf → 16 < buf.length → decodeEvent (decryptBuf K V buf) = .result r →
    exec .poll s =
      .next { s.pull.2 with upTaken := s.upTaken + 1, itemsOut := s.itemsOut + 1, work := none,
                            out := .itemResult (pack r) :: s.out }

/-- The faults of a poll after its pull, in their order: the item is counted as taken and lost, none is delivered
(60_exceptions.md sections 2 and 3, decisions D7, D9, D11, D19). -/
def Obligations.PollFaultsLoseTheItem : Prop :=
  ∀ (buf : Bytes) (s : State), s.Live → s.pull.1 = .ready buf →
    let faulted := fun c : BitVec 4 =>
      (.next { s.pull.2 with upTaken := s.upTaken + 1, fault := c, work := none, out := .faulted c :: s.out } : Answer)
    (¬ s.Fits buf → exec .pollEvt s = faulted 6#4) ∧
    (¬ s.Fits buf → s.bound = true → exec .pollDec s = faulted 6#4 ∧ exec .poll s = faulted 6#4) ∧
    (s.Fits buf → s.bound = true → buf.length ≤ 16 → exec .pollDec s = faulted 1#4 ∧ exec .poll s = faulted 1#4) ∧
    (s.Fits buf → decodeEvent buf = .faceFault → exec .pollEvt s = faulted 2#4) ∧
    ∀ K V, s.Session K V → s.Fits buf → 16 < buf.length → decodeEvent (decryptBuf K V buf) = .faceFault →
      exec .poll s = faulted 2#4

/-- `POLL` is the composition of the two transforms: where `POLL_DEC` delivers the decrypted item `p`, `POLL` ends
exactly as `POLL_EVT` does when the upstream's next answer is `p` instead; where `POLL_DEC` delivers none, `POLL` ends
as `POLL_DEC` does (44_decode_transform.md, derived). The script whose next answer is replaced is the model's form of
the upstream (log 3). -/
def Obligations.PollIsTheComposition : Prop :=
  ∀ s : State, s.Live →
    (∀ t p, exec .pollDec s = .next t → t.out = .itemBuffer p :: s.out →
      exec .poll s = exec .pollEvt { s.pull.2 with upstream := .ready p :: s.pull.2.upstream }) ∧
    ((∀ t p, exec .pollDec s = .next t → t.out ≠ .itemBuffer p :: s.out) → exec .poll s = exec .pollDec s)

/-- A `POLL` never answers `InvalidLength`: the decoder sees only buffers longer than 16 bytes
(44_decode_transform.md, derived). -/
def Obligations.PollNeverInvalidLength : Prop :=
  ∀ s t : State, exec .poll s = .next t → t.out ≠ .itemResult 1#32 :: s.out

/-- A run of `POLL_EVT` over items the decoder has results for delivers one result per item, in upstream order, failures
included (as the words 1 and 2), and ends with no fault, no state but the counters changed and every item counted
(44_decode_transform.md: failures do not terminate, and its derived order and count; counters: decision D23). The run
over an inbox of commands and an upstream script is the model's form (logs 3 and 4). -/
def Obligations.EventStreamInOrder : Prop :=
  pack (.err .invalidLength) = 0x00000001#32 ∧ pack (.err .unknownEventType) = 0x00000002#32 ∧
  ∀ (bufs : List Bytes) (rs : List EventResult) (s : State), s.Live → s.work = none →
    s.upstream = bufs.map UpAnswer.ready → s.inbox = List.replicate bufs.length (.command 0x60#8 []) →
    List.Forall₂ (fun b r => s.Fits b ∧ decodeEvent b = .result r) bufs rs →
    Host.Core.run Sys2Proof.core bufs.length s =
      .next
        { s with upstream := [], inbox := [], upTaken := s.upTaken + bufs.length, itemsOut := s.itemsOut + bufs.length,
                 out := (rs.map fun r => Response.itemResult (pack r)).reverse ++ s.out }

/-- A run of `POLL` in one session delivers the result of each decrypted item, in upstream order, all under the key
and IV of the session (44_decode_transform.md, derived; 40_key_derivation.md section 3, derived; counters: decision
D23). The run over an inbox of commands and an upstream script is the model's form (logs 3 and 4). -/
def Obligations.PipelineStreamInOrder : Prop :=
  ∀ (bufs : List Bytes) (rs : List EventResult) (s : State) (K V : Block), s.Live → s.work = none → s.Session K V →
    s.upstream = bufs.map UpAnswer.ready → s.inbox = List.replicate bufs.length (.command 0x70#8 []) →
    List.Forall₂ (fun b r => s.Fits b ∧ 16 < b.length ∧ decodeEvent (decryptBuf K V b) = .result r) bufs rs →
    Host.Core.run Sys2Proof.core bufs.length s =
      .next
        { s with upstream := [], inbox := [], upTaken := s.upTaken + bufs.length, itemsOut := s.itemsOut + bufs.length,
                 out := (rs.map fun r => Response.itemResult (pack r)).reverse ++ s.out }

/-- Under the premise `UPSTREAM_FUSED`, each of the three polls that meets `Exhausted` (`POLL_DEC` and `POLL` in a bound
session, `POLL_EVT` with or without one) leaves an upstream whose next answer is `Exhausted` again (10_state.md section
5, 42_decrypt_transform.md, 44_decode_transform.md, decisions D15 and D29). The premise is over the next `k + 2` pulls
of script and draws, the model's form of the upstream (log 3). -/
def Obligations.FusedUpstreamStaysExhausted : Prop :=
  ∀ (k : Nat) (s : State), s.Live → s.FusedFor (k + 2) → s.pull.1 = .exhausted →
    ∀ i, i = Instr.pollEvt ∨ (s.bound = true ∧ (i = .pollDec ∨ i = .poll)) →
      ∃ t, exec i s = .next t ∧ t.out = .exhausted :: s.out ∧ t.FusedFor (k + 1) ∧ t.pull.1 = .exhausted

/-! ## Reserved operations, faults, and the whole machine -/

/-- Each of the eight reserved operations is `BAD_COMMAND`, whatever its low nibble and payload (30_encoding.md
section 1, decision D25). -/
def Obligations.ReservedOperationsFault : Prop :=
  ∀ (low : BitVec 4) (payload : Bytes) (s : State), s.Live →
    ∀ i ∈ [Instr.reservedOp0 low payload, .reservedOp9 low payload, .reservedOpA low payload, .reservedOpB low payload,
      .reservedOpC low payload, .reservedOpD low payload, .reservedOpE low payload, .reservedOpF low payload],
      exec i s = .next { s with fault := 5#4, work := none, out := .faulted 5#4 :: s.out }

/-- While faulted, every instruction but `STATUS` answers `FAULTED(FAULT)` with the old code and changes nothing else;
so does every command at the step, malformed ones too, but a well-formed `STATUS` (60_exceptions.md section 2,
decision D11). The spec speaks of commands: that a record at a faulted block is answered so is the model's (log 12),
and so is that the codes 7 to 15, which are never written, act as faulted (log 14). -/
def Obligations.FaultedBlockRunsNothing : Prop :=
  (∀ (i : Instr) (s : State), ¬ s.Live → i ≠ .status →
    exec i s = .next { s with work := none, out := .faulted s.fault :: s.out }) ∧
  ∀ (s : State) (cmd : Byte) (payload : Bytes) (rest : List HostInput), ¬ s.Live → s.work = none →
    s.inbox = .command cmd payload :: rest → ¬ (cmd = 0x80#8 ∧ payload = []) →
    step s = .next { s with inbox := rest, out := .faulted s.fault :: s.out }

/-- A pending fault is left only by the reset event (60_exceptions.md section 4, decision D11). -/
def Obligations.OnlyResetClearsFault : Prop :=
  ∀ s t : State, step s = .next t → ¬ s.Live → t.fault ≠ s.fault →
    s.work = none ∧ (∃ rest, s.inbox = .reset :: rest) ∧ t.Live

/-- A step that sets `FAULT` found it 0, sets a code of 1 to 6, answers `FAULTED` with it, and leaves the session as
it was (60_exceptions.md section 2, decision D11). -/
def Obligations.FaultEntryIsPrecise : Prop :=
  ∀ s t : State, step s = .next t → ¬ t.Live → t.fault ≠ s.fault →
    s.Live ∧ 1 ≤ t.fault.toNat ∧ t.fault.toNat ≤ 6 ∧ t.out = .faulted t.fault :: s.out ∧
      t.bound = s.bound ∧ t.effKey = s.effKey ∧ t.effIv = s.effIv ∧ t.work = none ∧ t.itemsOut = s.itemsOut

/-- Each instruction that ends gives exactly one response and leaves no working buffer (30_encoding.md section 2,
20_memory.md section 1). -/
def Obligations.OneResponsePerInstruction : Prop :=
  ∀ (i : Instr) (s t : State), exec i s = .next t → t.work = none ∧ ∃ r, t.out = r :: s.out

/-- Only `BIND` and `RELEASE` write the session, no instruction writes the key table or the length bound, and none
takes an input of the host (10_state.md sections 2 and 3, 40_key_derivation.md section 3). -/
def Obligations.SessionFrame : Prop :=
  ∀ (i : Instr) (s t : State), exec i s = .next t →
    t.keyTable = s.keyTable ∧ t.maxBufLen = s.maxBufLen ∧ t.inbox = s.inbox ∧
    (¬ WritesSession i → t.bound = s.bound ∧ t.effKey = s.effKey ∧ t.effIv = s.effIv)

/-- Only polls touch the upstream and `UP_TAKEN`, and a poll pulls at most once and takes at most one item; a
delivered item is counted once, and only polls and the records run for one count it (30_encoding.md section 2,
10_state.md section 5, decision D16). Records as instructions, and the owner `DECODE` of a record with no working
buffer, are the model's (log 6); script and draws are its form of the upstream (log 3). -/
def Obligations.UpstreamFrame : Prop :=
  ∀ (i : Instr) (s t : State), exec i s = .next t →
    (¬ Polls i → t.upstream = s.upstream ∧ t.draws = s.draws ∧ t.upTaken = s.upTaken) ∧
    (¬ Polls i → s.owner = .decode → t.itemsOut = s.itemsOut) ∧
    (i.space = .command → ¬ Polls i → t.itemsOut = s.itemsOut) ∧
    ((t.upstream = s.upstream ∧ t.draws = s.draws ∧ t.upTaken = s.upTaken) ∨
      (t.upstream = s.pull.2.upstream ∧ t.draws = s.pull.2.draws ∧
        t.upTaken = s.upTaken + (match s.pull.1 with | .ready _ => 1 | .notReady => 0 | .exhausted => 0))) ∧
    t.itemsOut ≤ s.itemsOut + 1

/-- No instruction but the three that decrypt lets the host learn anything of the effective key or IV: with any other
values in their place it completes too, and the two next states agree in every field but the effective key and IV, so
no later response tells them apart without decrypting (60_exceptions.md section 5, decision D24). -/
def Obligations.KeysAreNotRevealed : Prop :=
  ∀ (i : Instr) (s : State) (k v : Option Block), ¬ Decrypts i →
    ∃ (t : State) (k' v' : Option Block), exec i s = .next t ∧
      exec i { s with effKey := k, effIv := v } = .next { t with effKey := k', effIv := v' }

/-- Where `DECRYPT`, or `POLL_DEC` or `POLL` on a pulled item, comes to decrypt and the key or the IV has no value, the
machine stops; only a state with `BOUND` = 1 and no value, which the invariant rules out, can meet it (10_state.md
sections 3 and 5, derived; the names of the stops, and that the key is read first, are the model's, log 8). -/
def Obligations.UnwrittenSessionReadFaults : Prop :=
  ∀ (buf : Bytes) (s : State), s.Live → s.bound = true → s.Fits buf → 16 < buf.length →
    ∀ i, i = Instr.decrypt buf ∨ (s.pull.1 = .ready buf ∧ (i = .pollDec ∨ i = .poll)) →
      (s.effKey = none → exec i s = .fault .effKeyUnwritten) ∧
      (s.effKey ≠ none → s.effIv = none → exec i s = .fault .effIvUnwritten)

/-- The state after reset meets the invariant. -/
def Obligations.ResetMeetsInv : Prop := State.reset.Inv

/-- Every step keeps the invariant: key and IV have values exactly while bound, `FAULT` stays a code of the table, no
working buffer survives, and without a fault `ITEMS_OUT` equals `UP_TAKEN` (10_state.md, 42_decrypt_transform.md,
44_decode_transform.md). -/
def Obligations.StepKeepsInv : Prop :=
  ∀ s t : State, s.Inv → step s = .next t → t.Inv

/-- From every state that meets the invariant the machine takes a step to a next state: no input of the host and no
answer of the upstream stops it (30_encoding.md section 1, "The dispatch is total"). -/
def Obligations.MachineNeverStops : Prop :=
  ∀ s : State, s.Inv → ∃ t, step s = .next t
end

