-- ==== Sys2Proof/Laws/Aes.lean ====
section
/-! SUPPORT. The laws of the cipher's parts: the field product is linear in its second operand, and each inverse step
undoes its step (41_block_decrypt.md R121 to R129). -/
namespace Sys2Proof.Machine

/-- The product loop is linear in its result and second operand. -/
theorem gmulLoop_xor (n : Nat) (r r' m a b : Byte) :
    gmulLoop n (r ^^^ r') m (a ^^^ b) = gmulLoop n r m a ^^^ gmulLoop n r' m b := by
  induction n generalizing r r' m a b with
  | zero => rfl
  | succ n ih =>
    simp only [gmulLoop, BitVec.ushiftRight_xor_distrib, BitVec.getLsbD_xor]
    rw [← ih]
    congr 1
    cases a.getLsbD 0 <;> cases b.getLsbD 0 <;> simp
    · ac_rfl
    · ac_rfl
    · rw [show (r ^^^ m) ^^^ (r' ^^^ m) = (r ^^^ r') ^^^ (m ^^^ m) by ac_rfl]
      simp

/-- The product is linear in its second operand. -/
theorem gmul_xor (m a b : Byte) : gmul m (a ^^^ b) = gmul m a ^^^ gmul m b := gmulLoop_xor 8 0#8 0#8 m a b

/-- The entries of the product of the two mixing matrices are those of the unit matrix: here on the diagonal. -/
theorem mix_diagonal : ∀ x : Byte,
    gmul 0x0E#8 (gmul 0x02#8 x) ^^^ gmul 0x0B#8 (gmul 0x01#8 x) ^^^ gmul 0x0D#8 (gmul 0x01#8 x) ^^^
      gmul 0x09#8 (gmul 0x03#8 x) = x := by decide +kernel

/-- The entries one column to the right. -/
theorem mix_off1 : ∀ x : Byte,
    gmul 0x0E#8 (gmul 0x03#8 x) ^^^ gmul 0x0B#8 (gmul 0x02#8 x) ^^^ gmul 0x0D#8 (gmul 0x01#8 x) ^^^
      gmul 0x09#8 (gmul 0x01#8 x) = 0#8 := by decide +kernel

/-- The entries two columns to the right. -/
theorem mix_off2 : ∀ x : Byte,
    gmul 0x0E#8 (gmul 0x01#8 x) ^^^ gmul 0x0B#8 (gmul 0x03#8 x) ^^^ gmul 0x0D#8 (gmul 0x02#8 x) ^^^
      gmul 0x09#8 (gmul 0x01#8 x) = 0#8 := by decide +kernel

/-- The entries three columns to the right. -/
theorem mix_off3 : ∀ x : Byte,
    gmul 0x0E#8 (gmul 0x01#8 x) ^^^ gmul 0x0B#8 (gmul 0x01#8 x) ^^^ gmul 0x0D#8 (gmul 0x03#8 x) ^^^
      gmul 0x09#8 (gmul 0x02#8 x) = 0#8 := by decide +kernel

/-- A row of the inverse matrix applied to a mixed column, regrouped by the column's bytes. -/
theorem mixRow_regroup (a0 a1 a2 a3 b0 b1 b2 b3 c0 c1 c2 c3 d0 d1 d2 d3 w : Byte)
    (h0 : a0 ^^^ b0 ^^^ c0 ^^^ d0 = w) (h1 : a1 ^^^ b1 ^^^ c1 ^^^ d1 = 0#8) (h2 : a2 ^^^ b2 ^^^ c2 ^^^ d2 = 0#8)
    (h3 : a3 ^^^ b3 ^^^ c3 ^^^ d3 = 0#8) :
    (a0 ^^^ a1 ^^^ a2 ^^^ a3) ^^^ (b0 ^^^ b1 ^^^ b2 ^^^ b3) ^^^ (c0 ^^^ c1 ^^^ c2 ^^^ c3) ^^^
      (d0 ^^^ d1 ^^^ d2 ^^^ d3) = w := by
  have e : (a0 ^^^ a1 ^^^ a2 ^^^ a3) ^^^ (b0 ^^^ b1 ^^^ b2 ^^^ b3) ^^^ (c0 ^^^ c1 ^^^ c2 ^^^ c3) ^^^
      (d0 ^^^ d1 ^^^ d2 ^^^ d3) =
      (a0 ^^^ b0 ^^^ c0 ^^^ d0) ^^^ (a1 ^^^ b1 ^^^ c1 ^^^ d1) ^^^ (a2 ^^^ b2 ^^^ c2 ^^^ d2) ^^^
        (a3 ^^^ b3 ^^^ c3 ^^^ d3) := by ac_rfl
  rw [e, h0, h1, h2, h3]
  simp

/-- A column turned up by one row. -/
def rotColumn (a : Column) : Column := { r0 := a.r1, r1 := a.r2, r2 := a.r3, r3 := a.r0 }

/-- The mixing matrix is circulant: mixing commutes with turning the column. -/
theorem mixColumn_rot (a : Column) : mixColumn (rotColumn a) = rotColumn (mixColumn a) := by
  simp only [mixColumn, rotColumn, mixRow, Column.mk.injEq]
  refine ⟨?_, ?_, ?_, ?_⟩ <;> ac_rfl

/-- So is its inverse. -/
theorem invMixColumn_rot (a : Column) : invMixColumn (rotColumn a) = rotColumn (invMixColumn a) := by
  simp only [invMixColumn, rotColumn, mixRow, Column.mk.injEq]
  refine ⟨?_, ?_, ?_, ?_⟩ <;> ac_rfl

/-- Row 0 of a mixed column is got back. -/
theorem invMixColumn_mixColumn_r0 (a : Column) : (invMixColumn (mixColumn a)).r0 = a.r0 := by
  simp only [invMixColumn, mixColumn, mixRow, gmul_xor]
  exact mixRow_regroup _ _ _ _ _ _ _ _ _ _ _ _ _ _ _ _ _ (mix_diagonal a.r0) (mix_off1 a.r1) (mix_off2 a.r2)
    (mix_off3 a.r3)

/-- `InvMixColumns` undoes `MixColumns`, column by column (R129). -/
theorem invMixColumn_mixColumn (a : Column) : invMixColumn (mixColumn a) = a := by
  have h : ∀ b : Column, (invMixColumn (mixColumn (rotColumn b))).r0 = (rotColumn (invMixColumn (mixColumn b))).r0 := by
    intro b
    rw [mixColumn_rot, invMixColumn_rot]
  have h0 := invMixColumn_mixColumn_r0 a
  have h1 := (h a).symm.trans (invMixColumn_mixColumn_r0 _)
  have h2 := invMixColumn_mixColumn_r0 (rotColumn (rotColumn a))
  have h3 := invMixColumn_mixColumn_r0 (rotColumn (rotColumn (rotColumn a)))
  simp only [mixColumn_rot, invMixColumn_rot] at h2 h3
  cases a
  exact Column.mk.injEq .. |>.mpr ⟨h0, h1, h2, h3⟩

/-- `InvMixColumns` undoes `MixColumns` (R129). -/
theorem invMixColumns_mixColumns (s : Block) : invMixColumns (mixColumns s) = s := by
  simp only [invMixColumns, mixColumns, mapColumns, invMixColumn_mixColumn]

/-- `InvShiftRows` undoes `ShiftRows` (R127). -/
theorem invShiftRows_shiftRows (s : Block) : invShiftRows (shiftRows s) = s := rfl

/-- Adding a round key twice changes nothing (R126). -/
theorem addRoundKey_addRoundKey (s rk : Block) : addRoundKey (addRoundKey s rk) rk = s := by
  simp [addRoundKey, Block.xor, Column.xor]

end Sys2Proof.Machine
end

