-- ==== Sys2Proof/Laws/Bits.lean ====
section
/-! SUPPORT. The bits of what is read and packed: stream bits (00_scope.md R7), the move record (30_encoding.md R75), the
result word (R82). -/
namespace Sys2Proof

/-- Bit `i` of a range of stream bits: the first bit read is the most significant. -/
theorem sbits_getLsbD (buf : Bytes) (lo w i : Nat) :
    (sbits buf lo w).getLsbD i = (decide (i < w) && sbit buf (lo + (w - 1 - i))) := by
  induction w generalizing i with
  | zero => simp [sbits]
  | succ w ih =>
    rw [sbits, BitVec.getLsbD_concat]
    cases i with
    | zero => simp
    | succ i =>
      rw [if_neg (Nat.succ_ne_zero i), Nat.add_sub_cancel, ih]
      simp only [Nat.succ_lt_succ_iff]
      by_cases h : i < w
      · rw [show w + 1 - 1 - (i + 1) = w - 1 - i by omega]
      · simp [h]

/-- Buffers with the same stream bits in a range give the same number there. -/
theorem sbits_congr {b b' : Bytes} {lo w : Nat} (h : ∀ k, lo ≤ k → k < lo + w → sbit b k = sbit b' k) :
    sbits b lo w = sbits b' lo w := by
  apply BitVec.eq_of_getLsbD_eq
  intro i hi
  rw [sbits_getLsbD, sbits_getLsbD, h _ (by omega) (by omega)]

/-- The stream bits of a 64-bit number laid out most significant byte first. -/
theorem sbit_beBytes (w : BitVec 64) {i : Nat} (hi : i < 64) : sbit (beBytes w) i = w.getLsbD (63 - i) := by
  interval_cases i <;> simp [sbit, beBytes]

/-- The stream bits of an encoded move record, field by field (R75). -/
theorem sbit_moveRecord (serial : Byte) (face : BitVec 4) (prime : Bool) (elapsed : BitVec 16) {i : Nat} (hi : i < 64) :
    sbit (beBytes (moveWord serial face prime elapsed)) i =
      if i < 4 then (2#4).getLsbD (3 - i)
      else if i < 12 then serial.getLsbD (11 - i)
      else if i < 16 then face.getLsbD (15 - i)
      else if i = 16 then prime
      else if i < 47 then false
      else if i < 63 then elapsed.getLsbD (62 - i)
      else false := by
  rw [sbit_beBytes _ hi, moveWord, BitVec.getLsbD_setWidth]
  simp only [BitVec.getLsbD_append]
  interval_cases i <;> simp +decide only [if_true, if_false] <;> simp

/-- The operation of a command byte as a number (R70). -/
theorem cmd_op : ∀ cmd : Byte, (cmd.extractLsb' 4 4).toNat = cmd.toNat / 16 := by decide

/-- The reserved bits of a command byte as a number (R70). -/
theorem cmd_reserved : ∀ cmd : Byte, (cmd.extractLsb' 0 4).extractLsb' 1 3 = 0#3 ↔ cmd.toNat / 2 % 8 = 0 := by decide

/-- The bit `FAM` of a command byte (R70). -/
theorem cmd_fam : ∀ cmd : Byte, (cmd.extractLsb' 0 4).getLsbD 0 = decide (cmd.toNat % 2 = 1) := by decide

/-- The bits of the result word of an event, field by field (R82). -/
theorem Machine.pack_ok_getLsbD (ev : Machine.Event) (i : Nat) :
    (Machine.pack (.ok ev)).getLsbD i =
      (decide (i < 32) &&
        if i < 4 then false
        else if i < 7 then ev.face.code.getLsbD (i - 4)
        else if i < 8 then ev.prime
        else if i < 16 then ev.serial.getLsbD (i - 8)
        else ev.elapsed.getLsbD (i - 16)) := by
  by_cases h : i < 32
  · rw [Machine.pack, BitVec.getLsbD_setWidth]
    simp only [BitVec.getLsbD_append]
    interval_cases i <;> simp +decide only [if_true, if_false] <;> simp
  · rw [BitVec.getLsbD_of_ge _ _ (by omega)]
    simp [h]

end Sys2Proof
end

