-- ==== Sys2Proof/Laws/Buffer.lean ====
section
/-! SUPPORT. Blocks as byte lists, the reads and writes of the working buffer (20_memory.md R50, R56), and the key
table's two entries (10_state.md R22). -/
namespace Sys2Proof.Machine

@[simp] theorem Block.toList_length (b : Block) : b.toList.length = 16 := rfl

/-- A block read back from its own bytes. -/
@[simp] theorem Block.ofList_toList (b : Block) : Block.ofList b.toList = b := rfl

/-- What follows the sixteen bytes of a block is not read into it. -/
@[simp] theorem Block.ofList_toList_append (b : Block) (l : Bytes) : Block.ofList (b.toList ++ l) = b := rfl

/-- Sixteen bytes are the bytes of the block they make. -/
theorem Block.toList_ofList {l : Bytes} (h : l.length = 16) : (Block.ofList l).toList = l := by
  match l, h with
  | [_, _, _, _, _, _, _, _, _, _, _, _, _, _, _, _], _ => rfl

/-- Byte `i` of the block made of `f`. -/
theorem Block.get_ofFn (f : Nat → Byte) {i : Nat} (h : i < 16) : (Block.ofFn f).get i = f i := by
  interval_cases i <;> rfl

theorem Block.xor_xor_self (a b : Block) : (a.xor b).xor b = a := by
  simp [Block.xor, Column.xor]

@[simp] theorem memRead_length {buf : Bytes} {a n : Nat} (h : a + n ≤ buf.length) : (memRead buf a n).length = n := by
  simp [memRead]; omega

@[simp] theorem memWrite_length {buf v : Bytes} {a : Nat} (h : a + v.length ≤ buf.length) :
    (memWrite buf a v).length = buf.length := by
  simp [memWrite]; omega

/-- A read after a write to the same place gives what was written. -/
theorem memRead_memWrite_same {buf v : Bytes} {a : Nat} (h : a + v.length ≤ buf.length) :
    memRead (memWrite buf a v) a v.length = v := by
  have ha : (buf.take a).length = a := by simp; omega
  simp [memRead, memWrite, List.append_assoc, ha]

/-- A write leaves every other byte alone. -/
theorem memWrite_getD_other {buf v : Bytes} {a i : Nat} (h : a + v.length ≤ buf.length) (hi : i < a ∨ a + v.length ≤ i)
    (d : Byte) : (memWrite buf a v).getD i d = buf.getD i d := by
  have ha : (buf.take a).length = a := by simp; omega
  rcases hi with hi | hi
  · simp only [memWrite, List.getD_eq_getElem?_getD, List.append_assoc, List.getElem?_append, ha, hi, if_true,
      List.getElem?_take]
  · have h1 : ¬ i < a := by omega
    have h2 : ¬ i - a < v.length := by omega
    simp only [memWrite, List.getD_eq_getElem?_getD, List.append_assoc, List.getElem?_append, ha, h1, if_false, h2,
      List.getElem?_drop]
    congr 2
    omega

/-- Writing back what a place held, after any write to it, restores the buffer. -/
theorem memWrite_memWrite_restore {buf v : Bytes} {a : Nat} (h : a + v.length ≤ buf.length) :
    memWrite (memWrite buf a v) a (memRead buf a v.length) = buf := by
  have ha : (buf.take a).length = a := by simp; omega
  have hr : (memRead buf a v.length).length = v.length := memRead_length h
  have h1 : (memWrite buf a v).take a = buf.take a := by
    simp [memWrite, List.append_assoc, ha]
  have h2 : (memWrite buf a v).drop (a + v.length) = buf.drop (a + v.length) := by
    simp [memWrite, List.append_assoc, List.drop_append, ha]
  rw [memWrite, h1, hr, h2, memRead, ← List.drop_drop, List.append_assoc, List.take_append_drop, List.take_append_drop]

theorem decryptAt_length {K V : Block} {buf : Bytes} {a : Nat} (h : a + 16 ≤ buf.length) :
    (decryptAt K V buf a).length = buf.length := memWrite_length h

theorem encryptAt_length {K V : Block} {buf : Bytes} {a : Nat} (h : a + 16 ≤ buf.length) :
    (encryptAt K V buf a).length = buf.length := memWrite_length h

theorem decryptBuf_length {K V : Block} {buf : Bytes} (h : 16 < buf.length) :
    (decryptBuf K V buf).length = buf.length := by
  have h1 : (decryptAt K V buf (buf.length - 16)).length = buf.length := decryptAt_length (by omega)
  rw [decryptBuf, decryptAt_length (by omega), h1]

/-! ### The key table -/

@[simp] theorem keyTableLookup_fam0 (t : KeyTable) : keyTableLookup t .fam0 = t.fam0 := rfl
@[simp] theorem keyTableLookup_fam1 (t : KeyTable) : keyTableLookup t .fam1 = t.fam1 := rfl

end Sys2Proof.Machine
end

