-- ==== Sys2Proof/Laws/State.lean ====
section
/-! SUPPORT. One lemma per field per update of the state, so that no later proof unfolds a record update. -/
namespace Sys2Proof.Machine

@[simp] theorem State.respond_keyTable (s : State) (r : Response) : (s.respond r).keyTable = s.keyTable := rfl
@[simp] theorem State.respond_maxBufLen (s : State) (r : Response) : (s.respond r).maxBufLen = s.maxBufLen := rfl
@[simp] theorem State.respond_bound (s : State) (r : Response) : (s.respond r).bound = s.bound := rfl
@[simp] theorem State.respond_effKey (s : State) (r : Response) : (s.respond r).effKey = s.effKey := rfl
@[simp] theorem State.respond_effIv (s : State) (r : Response) : (s.respond r).effIv = s.effIv := rfl
@[simp] theorem State.respond_fault (s : State) (r : Response) : (s.respond r).fault = s.fault := rfl
@[simp] theorem State.respond_work (s : State) (r : Response) : (s.respond r).work = none := rfl
@[simp] theorem State.respond_upTaken (s : State) (r : Response) : (s.respond r).upTaken = s.upTaken := rfl
@[simp] theorem State.respond_itemsOut (s : State) (r : Response) : (s.respond r).itemsOut = s.itemsOut := rfl
@[simp] theorem State.respond_upstream (s : State) (r : Response) : (s.respond r).upstream = s.upstream := rfl
@[simp] theorem State.respond_draws (s : State) (r : Response) : (s.respond r).draws = s.draws := rfl
@[simp] theorem State.respond_inbox (s : State) (r : Response) : (s.respond r).inbox = s.inbox := rfl
@[simp] theorem State.respond_out (s : State) (r : Response) : (s.respond r).out = r :: s.out := rfl

@[simp] theorem State.raiseFault_keyTable (s : State) (c : FaultCode) : (s.raiseFault c).keyTable = s.keyTable := rfl
@[simp] theorem State.raiseFault_maxBufLen (s : State) (c : FaultCode) : (s.raiseFault c).maxBufLen = s.maxBufLen := rfl
@[simp] theorem State.raiseFault_bound (s : State) (c : FaultCode) : (s.raiseFault c).bound = s.bound := rfl
@[simp] theorem State.raiseFault_effKey (s : State) (c : FaultCode) : (s.raiseFault c).effKey = s.effKey := rfl
@[simp] theorem State.raiseFault_effIv (s : State) (c : FaultCode) : (s.raiseFault c).effIv = s.effIv := rfl
@[simp] theorem State.raiseFault_fault (s : State) (c : FaultCode) : (s.raiseFault c).fault = c.code := rfl
@[simp] theorem State.raiseFault_work (s : State) (c : FaultCode) : (s.raiseFault c).work = none := rfl
@[simp] theorem State.raiseFault_upTaken (s : State) (c : FaultCode) : (s.raiseFault c).upTaken = s.upTaken := rfl
@[simp] theorem State.raiseFault_itemsOut (s : State) (c : FaultCode) : (s.raiseFault c).itemsOut = s.itemsOut := rfl
@[simp] theorem State.raiseFault_upstream (s : State) (c : FaultCode) : (s.raiseFault c).upstream = s.upstream := rfl
@[simp] theorem State.raiseFault_draws (s : State) (c : FaultCode) : (s.raiseFault c).draws = s.draws := rfl
@[simp] theorem State.raiseFault_inbox (s : State) (c : FaultCode) : (s.raiseFault c).inbox = s.inbox := rfl
@[simp] theorem State.raiseFault_out (s : State) (c : FaultCode) : (s.raiseFault c).out = .faulted c.code :: s.out := rfl

@[simp] theorem State.resetBlock_keyTable (s : State) : (s.resetBlock).keyTable = s.keyTable := rfl
@[simp] theorem State.resetBlock_maxBufLen (s : State) : (s.resetBlock).maxBufLen = s.maxBufLen := rfl
@[simp] theorem State.resetBlock_bound (s : State) : (s.resetBlock).bound = false := rfl
@[simp] theorem State.resetBlock_effKey (s : State) : (s.resetBlock).effKey = none := rfl
@[simp] theorem State.resetBlock_effIv (s : State) : (s.resetBlock).effIv = none := rfl
@[simp] theorem State.resetBlock_fault (s : State) : (s.resetBlock).fault = 0#4 := rfl
@[simp] theorem State.resetBlock_work (s : State) : (s.resetBlock).work = none := rfl
@[simp] theorem State.resetBlock_upTaken (s : State) : (s.resetBlock).upTaken = 0 := rfl
@[simp] theorem State.resetBlock_itemsOut (s : State) : (s.resetBlock).itemsOut = 0 := rfl
@[simp] theorem State.resetBlock_upstream (s : State) : (s.resetBlock).upstream = s.upstream := rfl
@[simp] theorem State.resetBlock_draws (s : State) : (s.resetBlock).draws = s.draws := rfl
@[simp] theorem State.resetBlock_inbox (s : State) : (s.resetBlock).inbox = s.inbox := rfl
@[simp] theorem State.resetBlock_out (s : State) : (s.resetBlock).out = s.out := rfl

@[simp] theorem State.bindSession_keyTable (s : State) (K V : Block) : (s.bindSession K V).keyTable = s.keyTable := rfl
@[simp] theorem State.bindSession_maxBufLen (s : State) (K V : Block) : (s.bindSession K V).maxBufLen = s.maxBufLen := rfl
@[simp] theorem State.bindSession_bound (s : State) (K V : Block) : (s.bindSession K V).bound = true := rfl
@[simp] theorem State.bindSession_effKey (s : State) (K V : Block) : (s.bindSession K V).effKey = some K := rfl
@[simp] theorem State.bindSession_effIv (s : State) (K V : Block) : (s.bindSession K V).effIv = some V := rfl
@[simp] theorem State.bindSession_fault (s : State) (K V : Block) : (s.bindSession K V).fault = s.fault := rfl
@[simp] theorem State.bindSession_work (s : State) (K V : Block) : (s.bindSession K V).work = s.work := rfl
@[simp] theorem State.bindSession_upTaken (s : State) (K V : Block) : (s.bindSession K V).upTaken = s.upTaken := rfl
@[simp] theorem State.bindSession_itemsOut (s : State) (K V : Block) : (s.bindSession K V).itemsOut = s.itemsOut := rfl
@[simp] theorem State.bindSession_upstream (s : State) (K V : Block) : (s.bindSession K V).upstream = s.upstream := rfl
@[simp] theorem State.bindSession_draws (s : State) (K V : Block) : (s.bindSession K V).draws = s.draws := rfl
@[simp] theorem State.bindSession_inbox (s : State) (K V : Block) : (s.bindSession K V).inbox = s.inbox := rfl
@[simp] theorem State.bindSession_out (s : State) (K V : Block) : (s.bindSession K V).out = s.out := rfl

@[simp] theorem State.endSession_keyTable (s : State) : (s.endSession).keyTable = s.keyTable := rfl
@[simp] theorem State.endSession_maxBufLen (s : State) : (s.endSession).maxBufLen = s.maxBufLen := rfl
@[simp] theorem State.endSession_bound (s : State) : (s.endSession).bound = false := rfl
@[simp] theorem State.endSession_effKey (s : State) : (s.endSession).effKey = none := rfl
@[simp] theorem State.endSession_effIv (s : State) : (s.endSession).effIv = none := rfl
@[simp] theorem State.endSession_fault (s : State) : (s.endSession).fault = s.fault := rfl
@[simp] theorem State.endSession_work (s : State) : (s.endSession).work = s.work := rfl
@[simp] theorem State.endSession_upTaken (s : State) : (s.endSession).upTaken = s.upTaken := rfl
@[simp] theorem State.endSession_itemsOut (s : State) : (s.endSession).itemsOut = s.itemsOut := rfl
@[simp] theorem State.endSession_upstream (s : State) : (s.endSession).upstream = s.upstream := rfl
@[simp] theorem State.endSession_draws (s : State) : (s.endSession).draws = s.draws := rfl
@[simp] theorem State.endSession_inbox (s : State) : (s.endSession).inbox = s.inbox := rfl
@[simp] theorem State.endSession_out (s : State) : (s.endSession).out = s.out := rfl

@[simp] theorem State.countTaken_keyTable (s : State) : (s.countTaken).keyTable = s.keyTable := rfl
@[simp] theorem State.countTaken_maxBufLen (s : State) : (s.countTaken).maxBufLen = s.maxBufLen := rfl
@[simp] theorem State.countTaken_bound (s : State) : (s.countTaken).bound = s.bound := rfl
@[simp] theorem State.countTaken_effKey (s : State) : (s.countTaken).effKey = s.effKey := rfl
@[simp] theorem State.countTaken_effIv (s : State) : (s.countTaken).effIv = s.effIv := rfl
@[simp] theorem State.countTaken_fault (s : State) : (s.countTaken).fault = s.fault := rfl
@[simp] theorem State.countTaken_work (s : State) : (s.countTaken).work = s.work := rfl
@[simp] theorem State.countTaken_upTaken (s : State) : (s.countTaken).upTaken = s.upTaken + 1 := rfl
@[simp] theorem State.countTaken_itemsOut (s : State) : (s.countTaken).itemsOut = s.itemsOut := rfl
@[simp] theorem State.countTaken_upstream (s : State) : (s.countTaken).upstream = s.upstream := rfl
@[simp] theorem State.countTaken_draws (s : State) : (s.countTaken).draws = s.draws := rfl
@[simp] theorem State.countTaken_inbox (s : State) : (s.countTaken).inbox = s.inbox := rfl
@[simp] theorem State.countTaken_out (s : State) : (s.countTaken).out = s.out := rfl

@[simp] theorem State.countItem_keyTable (s : State) : (s.countItem).keyTable = s.keyTable := rfl
@[simp] theorem State.countItem_maxBufLen (s : State) : (s.countItem).maxBufLen = s.maxBufLen := rfl
@[simp] theorem State.countItem_bound (s : State) : (s.countItem).bound = s.bound := rfl
@[simp] theorem State.countItem_effKey (s : State) : (s.countItem).effKey = s.effKey := rfl
@[simp] theorem State.countItem_effIv (s : State) : (s.countItem).effIv = s.effIv := rfl
@[simp] theorem State.countItem_fault (s : State) : (s.countItem).fault = s.fault := rfl
@[simp] theorem State.countItem_work (s : State) : (s.countItem).work = s.work := rfl
@[simp] theorem State.countItem_upTaken (s : State) : (s.countItem).upTaken = s.upTaken := rfl
@[simp] theorem State.countItem_itemsOut (s : State) : (s.countItem).itemsOut = s.itemsOut + 1 := rfl
@[simp] theorem State.countItem_upstream (s : State) : (s.countItem).upstream = s.upstream := rfl
@[simp] theorem State.countItem_draws (s : State) : (s.countItem).draws = s.draws := rfl
@[simp] theorem State.countItem_inbox (s : State) : (s.countItem).inbox = s.inbox := rfl
@[simp] theorem State.countItem_out (s : State) : (s.countItem).out = s.out := rfl

@[simp] theorem State.own_keyTable (s : State) (o : Owner) (buf : Bytes) : (s.own o buf).keyTable = s.keyTable := rfl
@[simp] theorem State.own_maxBufLen (s : State) (o : Owner) (buf : Bytes) : (s.own o buf).maxBufLen = s.maxBufLen := rfl
@[simp] theorem State.own_bound (s : State) (o : Owner) (buf : Bytes) : (s.own o buf).bound = s.bound := rfl
@[simp] theorem State.own_effKey (s : State) (o : Owner) (buf : Bytes) : (s.own o buf).effKey = s.effKey := rfl
@[simp] theorem State.own_effIv (s : State) (o : Owner) (buf : Bytes) : (s.own o buf).effIv = s.effIv := rfl
@[simp] theorem State.own_fault (s : State) (o : Owner) (buf : Bytes) : (s.own o buf).fault = s.fault := rfl
@[simp] theorem State.own_work (s : State) (o : Owner) (buf : Bytes) : (s.own o buf).work = some { owner := o, bytes := buf } := rfl
@[simp] theorem State.own_upTaken (s : State) (o : Owner) (buf : Bytes) : (s.own o buf).upTaken = s.upTaken := rfl
@[simp] theorem State.own_itemsOut (s : State) (o : Owner) (buf : Bytes) : (s.own o buf).itemsOut = s.itemsOut := rfl
@[simp] theorem State.own_upstream (s : State) (o : Owner) (buf : Bytes) : (s.own o buf).upstream = s.upstream := rfl
@[simp] theorem State.own_draws (s : State) (o : Owner) (buf : Bytes) : (s.own o buf).draws = s.draws := rfl
@[simp] theorem State.own_inbox (s : State) (o : Owner) (buf : Bytes) : (s.own o buf).inbox = s.inbox := rfl
@[simp] theorem State.own_out (s : State) (o : Owner) (buf : Bytes) : (s.own o buf).out = s.out := rfl

end Sys2Proof.Machine
end

