-- ==== Sys2Proof/Laws/Ops.lean ====
section
/-! SUPPORT. What each shared operation can do, said once: proofs cite these instead of unfolding the operations. -/
namespace Sys2Proof.Machine

/-! ### The checks -/

theorem State.whenLive_of_live {s : State} (h : s.Live) (k : State → Answer) : s.whenLive k = k s := if_pos h

theorem State.whenLive_of_faulted {s : State} (h : ¬ s.Live) (k : State → Answer) :
    s.whenLive k = .next { s with work := none, out := .faulted s.fault :: s.out } := if_neg h

/-- A next state of a guarded meaning: the block was live and the meaning ran, or it was faulted and said so. -/
theorem State.whenLive_next {s t : State} {k : State → Answer} (h : s.whenLive k = .next t) :
    (s.Live ∧ k s = .next t) ∨ (¬ s.Live ∧ t = { s with work := none, out := .faulted s.fault :: s.out }) := by
  by_cases hl : s.Live
  · exact .inl ⟨hl, by rwa [State.whenLive_of_live hl] at h⟩
  · rw [State.whenLive_of_faulted hl] at h
    exact .inr ⟨hl, by cases h; rfl⟩

theorem State.whenBound_of_bound {s : State} (h : s.bound = true) (k : State → Answer) : s.whenBound k = k s := if_pos h

theorem State.whenBound_of_unbound {s : State} (h : s.bound = false) (k : State → Answer) :
    s.whenBound k = .next (s.raiseFault .noSession) := by simp [State.whenBound, h]

/-- A next state behind the session check: a session was bound, or the fault is `NO_SESSION`. -/
theorem State.whenBound_next {s t : State} {k : State → Answer} (h : s.whenBound k = .next t) :
    (s.bound = true ∧ k s = .next t) ∨ (s.bound = false ∧ t = s.raiseFault .noSession) := by
  cases hb : s.bound
  · rw [State.whenBound_of_unbound hb] at h
    exact .inr ⟨rfl, by cases h; rfl⟩
  · exact .inl ⟨rfl, by rwa [State.whenBound_of_bound hb] at h⟩

theorem tooLong_eq_false_iff (m : Option Nat) (buf : Bytes) :
    tooLong m buf = false ↔ ∀ n, m = some n → buf.length ≤ n := by
  cases m <;> simp [tooLong]

theorem State.tooLong_of_fits {s : State} {buf : Bytes} (h : s.Fits buf) : tooLong s.maxBufLen buf = false :=
  (tooLong_eq_false_iff _ _).2 h

theorem State.tooLong_of_not_fits {s : State} {buf : Bytes} (h : ¬ s.Fits buf) : tooLong s.maxBufLen buf = true := by
  cases hl : tooLong s.maxBufLen buf
  · exact absurd ((tooLong_eq_false_iff _ _).1 hl) h
  · rfl

/-! ### The pull -/

theorem State.pull_cons {s : State} {a : UpAnswer} {rest : List UpAnswer} (h : s.upstream = a :: rest) :
    s.pull = (a, { s with upstream := rest }) := by simp [State.pull, h]

/-- A pull changes only the upstream's script and the number of the next draw. -/
theorem State.pull_snd (s : State) :
    s.pull.2 = { s with upstream := s.pull.2.upstream, draws := s.pull.2.draws } := by
  unfold State.pull
  split <;> rfl

@[simp] theorem State.pull_keyTable (s : State) : s.pull.2.keyTable = s.keyTable := by rw [State.pull_snd]
@[simp] theorem State.pull_maxBufLen (s : State) : s.pull.2.maxBufLen = s.maxBufLen := by rw [State.pull_snd]
@[simp] theorem State.pull_bound (s : State) : s.pull.2.bound = s.bound := by rw [State.pull_snd]
@[simp] theorem State.pull_effKey (s : State) : s.pull.2.effKey = s.effKey := by rw [State.pull_snd]
@[simp] theorem State.pull_effIv (s : State) : s.pull.2.effIv = s.effIv := by rw [State.pull_snd]
@[simp] theorem State.pull_fault (s : State) : s.pull.2.fault = s.fault := by rw [State.pull_snd]
@[simp] theorem State.pull_work (s : State) : s.pull.2.work = s.work := by rw [State.pull_snd]
@[simp] theorem State.pull_upTaken (s : State) : s.pull.2.upTaken = s.upTaken := by rw [State.pull_snd]
@[simp] theorem State.pull_itemsOut (s : State) : s.pull.2.itemsOut = s.itemsOut := by rw [State.pull_snd]
@[simp] theorem State.pull_inbox (s : State) : s.pull.2.inbox = s.inbox := by rw [State.pull_snd]
@[simp] theorem State.pull_out (s : State) : s.pull.2.out = s.out := by rw [State.pull_snd]

/-- The answer to the next pull is what the pull gives. -/
theorem State.answerAt_zero (s : State) : s.answerAt 0 = s.pull.1 := by
  unfold State.answerAt State.pull
  cases s.upstream <;> simp

/-- After a pull the later answers have moved up by one. -/
theorem State.answerAt_pull (s : State) (n : Nat) : s.pull.2.answerAt n = s.answerAt (n + 1) := by
  unfold State.pull
  cases h : s.upstream with
  | cons a rest => simp [State.answerAt, h]
  | nil =>
    simp only [State.answerAt, h, List.length_nil, Nat.not_lt_zero, dite_false, Nat.sub_zero]
    rw [Nat.add_right_comm, Nat.add_assoc]

theorem State.afterPull_ready {α : Type} {s : State} {buf : Bytes} (h : s.pull.1 = .ready buf) (lift : State → α)
    (item : Bytes → State → α) : s.afterPull lift item = item buf s.pull.2.countTaken := by
  rw [State.afterPull, ← Prod.mk.eta (p := s.pull), h]

theorem State.afterPull_notReady {α : Type} {s : State} (h : s.pull.1 = .notReady) (lift : State → α)
    (item : Bytes → State → α) : s.afterPull lift item = lift (s.pull.2.respond .notReady) := by
  rw [State.afterPull, ← Prod.mk.eta (p := s.pull), h]

theorem State.afterPull_exhausted {α : Type} {s : State} (h : s.pull.1 = .exhausted) (lift : State → α)
    (item : Bytes → State → α) : s.afterPull lift item = lift (s.pull.2.respond .exhausted) := by
  rw [State.afterPull, ← Prod.mk.eta (p := s.pull), h]

/-- The three ways a pull goes on. -/
theorem State.afterPull_cases {α : Type} (s : State) (lift : State → α) (item : Bytes → State → α) :
    (s.pull.1 = .notReady ∧ s.afterPull lift item = lift (s.pull.2.respond .notReady)) ∨
    (s.pull.1 = .exhausted ∧ s.afterPull lift item = lift (s.pull.2.respond .exhausted)) ∨
    ∃ buf, s.pull.1 = .ready buf ∧ s.afterPull lift item = item buf s.pull.2.countTaken := by
  cases h : s.pull.1 with
  | ready buf => exact .inr (.inr ⟨buf, rfl, State.afterPull_ready h lift item⟩)
  | notReady => exact .inl ⟨rfl, State.afterPull_notReady h lift item⟩
  | exhausted => exact .inr (.inl ⟨rfl, State.afterPull_exhausted h lift item⟩)

/-! ### The decryption behind its checks -/

theorem State.decryptChecked_tooLong {s : State} {buf : Bytes} (h : ¬ s.Fits buf) (k : Bytes → Answer) :
    s.decryptChecked buf k = .next (s.raiseFault .bufferTooLong) := by
  simp [State.decryptChecked, State.tooLong_of_not_fits h]

theorem State.decryptChecked_short {s : State} {buf : Bytes} (h : s.Fits buf) (hn : buf.length ≤ 16)
    (k : Bytes → Answer) : s.decryptChecked buf k = .next (s.raiseFault .decryptShortBuffer) := by
  simp [State.decryptChecked, State.tooLong_of_fits h, hn]

theorem State.decryptChecked_ok {s : State} {buf : Bytes} {K V : Block} (h : s.Fits buf) (hn : 16 < buf.length)
    (hk : s.effKey = some K) (hv : s.effIv = some V) (k : Bytes → Answer) :
    s.decryptChecked buf k = k (decryptBuf K V buf) := by
  simp [State.decryptChecked, State.tooLong_of_fits h, State.readEffKey, State.readEffIv, hk, hv, Nat.not_le.2 hn]

/-- A next state of a checked decryption: one of its two faults, or the decrypted buffer under the session's values. -/
theorem State.decryptChecked_next {s t : State} {buf : Bytes} {k : Bytes → Answer}
    (h : s.decryptChecked buf k = .next t) :
    t = s.raiseFault .bufferTooLong ∨ t = s.raiseFault .decryptShortBuffer ∨
      ∃ K V, s.effKey = some K ∧ s.effIv = some V ∧ s.Fits buf ∧ 16 < buf.length ∧ k (decryptBuf K V buf) = .next t := by
  by_cases hf : s.Fits buf
  · by_cases hn : buf.length ≤ 16
    · rw [State.decryptChecked_short hf hn] at h
      exact .inr (.inl (by cases h; rfl))
    · cases hk : s.effKey with
      | none => simp [State.decryptChecked, State.tooLong_of_fits hf, hn, State.readEffKey, hk] at h
      | some K =>
        cases hv : s.effIv with
        | none => simp [State.decryptChecked, State.tooLong_of_fits hf, hn, State.readEffKey, State.readEffIv, hk, hv] at h
        | some V =>
          rw [State.decryptChecked_ok hf (Nat.not_le.1 hn) hk hv] at h
          exact .inr (.inr ⟨K, V, rfl, rfl, hf, Nat.not_le.1 hn, h⟩)
  · rw [State.decryptChecked_tooLong hf] at h
    exact .inl (by cases h; rfl)

/-! ### The end of a decoding command -/

theorem State.deliver_eq_delivered (s : State) (w : BitVec 32) : s.deliver w = s.delivered w := by
  unfold State.deliver State.delivered
  cases s.owner <;> simp [State.respond, State.countItem]

/-- A command that decodes ends by delivering a word or by `FACE_CODE_RANGE`. -/
theorem State.finishDecode_cases (s : State) (r : DecodeOutcome) :
    (∃ e, r = .result e ∧ s.finishDecode r = s.delivered (pack e)) ∨
      (r = .faceFault ∧ s.finishDecode r = s.raiseFault .faceCodeRange) := by
  cases r with
  | result e => exact .inl ⟨e, rfl, State.deliver_eq_delivered s (pack e)⟩
  | faceFault => exact .inr ⟨rfl, rfl⟩

theorem State.runDecoder_result {s : State} {o : Owner} {buf : Bytes} {r : EventResult} (h : decodeEvent buf = .result r) :
    s.runDecoder o buf = (s.own o buf).delivered (pack r) := by
  rw [State.runDecoder, h]
  exact State.deliver_eq_delivered _ _

theorem State.runDecoder_faceFault {s : State} {o : Owner} {buf : Bytes} (h : decodeEvent buf = .faceFault) :
    s.runDecoder o buf = (s.own o buf).raiseFault .faceCodeRange := by
  rw [State.runDecoder, h]
  rfl

theorem State.decodeChecked_tooLong {s : State} {o : Owner} {buf : Bytes} (h : ¬ s.Fits buf) :
    s.decodeChecked o buf = s.raiseFault .bufferTooLong := by simp [State.decodeChecked, State.tooLong_of_not_fits h]

theorem State.decodeChecked_fits {s : State} {o : Owner} {buf : Bytes} (h : s.Fits buf) :
    s.decodeChecked o buf = s.runDecoder o buf := by simp [State.decodeChecked, State.tooLong_of_fits h]

end Sys2Proof.Machine
end

