-- ==== Sys2Proof/Laws/Exec.lean ====
section
/-! SUPPORT. Everything an instruction can do, said once: the next states of `exec`. Statements over all instructions go
through `exec_cases` instead of unfolding the meanings. -/
namespace Sys2Proof.Machine

/-- The next states of `exec i s`. -/
inductive ExecCase (i : Instr) (s : State) : State → Prop
  /-- a faulted block runs nothing but `STATUS` (60_exceptions.md R234) -/
  | faulted : ¬ s.Live → i ≠ .status → ExecCase i s { s with work := none, out := .faulted s.fault :: s.out }
  /-- `STATUS`, in any state -/
  | status : i = .status → ExecCase i s (s.respond (.status s.statusView))
  /-- a fault raised before any pull -/
  | raise (c : FaultCode) : s.Live → i ≠ .status → ExecCase i s (s.raiseFault c)
  | bind (f : Family) (addr : Bytes) (K V : Block) : s.Live → i = .bind f addr → s.bound = false →
      ExecCase i s ((s.bindSession K V).respond .ack)
  | release : s.Live → i = .release → ExecCase i s (s.endSession.respond .ack)
  | decrypt (buf p : Bytes) : s.Live → i = .decrypt buf → s.bound = true → ExecCase i s (s.respond (.buffer p))
  | decode (buf : Bytes) (w : BitVec 32) : s.Live → i = .decode buf → ExecCase i s (s.respond (.result w))
  /-- a record delivers its word -/
  | record (w : BitVec 32) : s.Live → i.space = .record → ExecCase i s (s.delivered w)
  | notReady : s.Live → Polls i → s.pull.1 = .notReady → ExecCase i s (s.pull.2.respond .notReady)
  | exhausted : s.Live → Polls i → s.pull.1 = .exhausted → ExecCase i s (s.pull.2.respond .exhausted)
  /-- a fault raised after the pull: the item is taken and lost -/
  | lost (c : FaultCode) (buf : Bytes) : s.Live → Polls i → s.pull.1 = .ready buf →
      ExecCase i s (s.pull.2.countTaken.raiseFault c)
  /-- an item delivered -/
  | item (r : Response) (buf : Bytes) : s.Live → Polls i → s.pull.1 = .ready buf →
      ExecCase i s (s.pull.2.countTaken.countItem.respond r)

/-- A word delivered for a command that owns its buffer. -/
theorem State.own_delivered (s : State) (o : Owner) (buf : Bytes) (w : BitVec 32) :
    (s.own o buf).delivered w =
      if o = .decode then s.respond (.result w) else s.countItem.respond (.itemResult w) := by
  cases o <;> rfl

/-- The decoder run for a command delivers a word or raises `FACE_CODE_RANGE`. -/
theorem State.runDecoder_cases (s : State) (o : Owner) (buf : Bytes) :
    (∃ w, s.runDecoder o buf = if o = .decode then s.respond (.result w) else s.countItem.respond (.itemResult w)) ∨
      s.runDecoder o buf = s.raiseFault .faceCodeRange := by
  cases h : decodeEvent buf with
  | result r => exact .inl ⟨pack r, by rw [State.runDecoder_result h, State.own_delivered]⟩
  | faceFault => exact .inr (by rw [State.runDecoder_faceFault h]; rfl)

/-- While faulted, every instruction but `STATUS` gives the old code and changes nothing. -/
theorem exec_of_faulted {i : Instr} {s : State} (h : ¬ s.Live) (hi : i ≠ .status) :
    exec i s = .next { s with work := none, out := .faulted s.fault :: s.out } := by
  cases i with
  | status => exact absurd rfl hi
  | bind _ _ | release | decrypt _ | decode _ | pollDec | pollEvt | poll
  | reservedOp0 _ _ | reservedOp9 _ _ | reservedOpA _ _ | reservedOpB _ _ | reservedOpC _ _ | reservedOpD _ _
  | reservedOpE _ _ | reservedOpF _ _ | move _ _ _ _ | evtUnknown0 | evtUnknown1 | evtUnknown3 | evtUnknown4
  | evtUnknown5 | evtUnknown6 | evtUnknown7 | evtUnknown8 | evtUnknown9 | evtUnknown10 | evtUnknown11 | evtUnknown12
  | evtUnknown13 | evtUnknown14 | evtUnknown15 =>
    simp only [exec, execBind, execRelease, execDecrypt, execDecode, execPollDec, execPollEvt, execPoll, execReservedOp0,
      execReservedOp9, execReservedOpA, execReservedOpB, execReservedOpC, execReservedOpD, execReservedOpE,
      execReservedOpF, execMove, execEvtUnknown0, execEvtUnknown1, execEvtUnknown3, execEvtUnknown4, execEvtUnknown5,
      execEvtUnknown6, execEvtUnknown7, execEvtUnknown8, execEvtUnknown9, execEvtUnknown10, execEvtUnknown11,
      execEvtUnknown12, execEvtUnknown13, execEvtUnknown14, execEvtUnknown15, State.badCommand, State.runUnknown,
      State.runRecord, State.whenLive_of_faulted h]

/-- A record run by a live block delivers its word or raises `FACE_CODE_RANGE`. -/
theorem State.runRecord_cases {i : Instr} {s t : State} {r : DecodeOutcome} (hl : s.Live) (hi : i.space = .record)
    (h : s.runRecord r = .next t) : ExecCase i s t := by
  rw [State.runRecord, State.whenLive_of_live hl] at h
  rcases State.finishDecode_cases s r with ⟨e, _, he⟩ | ⟨_, he⟩ <;> rw [he] at h <;> cases h
  · exact .record _ hl hi
  · exact .raise _ hl (by rintro rfl; simp [Instr.space] at hi)

/-- The reserved operations of a live block. -/
theorem State.badCommand_cases {i : Instr} {s t : State} (hl : s.Live) (hi : i ≠ .status)
    (h : s.badCommand = .next t) : ExecCase i s t := by
  rw [State.badCommand, State.whenLive_of_live hl] at h
  cases h
  exact .raise _ hl hi

/-- What a poll does with the upstream's answer, given what it does with an item. -/
theorem State.afterPull_execCase {i : Instr} {s t : State} {item : Bytes → State → Answer} (hl : s.Live)
    (hp : Polls i) (h : s.afterPull .next item = .next t)
    (hitem : ∀ buf, s.pull.1 = .ready buf → item buf s.pull.2.countTaken = .next t → ExecCase i s t) :
    ExecCase i s t := by
  rcases State.afterPull_cases s (.next : State → Answer) item with ⟨ha, e⟩ | ⟨ha, e⟩ | ⟨buf, ha, e⟩ <;> rw [e] at h
  · cases h; exact .notReady hl hp ha
  · cases h; exact .exhausted hl hp ha
  · exact hitem buf ha h

/-- Every next state of an instruction is one of the cases. -/
theorem exec_cases {i : Instr} {s t : State} (h : exec i s = .next t) : ExecCase i s t := by
  by_cases hs : i = .status
  · subst hs; cases h; exact .status rfl
  by_cases hl : s.Live
  swap
  · rw [exec_of_faulted hl hs] at h; cases h; exact .faulted hl hs
  cases i with
  | status => exact absurd rfl hs
  | bind f addr =>
    simp only [exec, execBind, State.whenLive_of_live hl] at h
    split at h
    · split at h <;> cases h
      · exact .raise _ hl hs
      · exact .bind f addr _ _ hl rfl (by simpa using ‹¬ s.bound = true›)
    · cases h; exact .raise _ hl hs
  | release =>
    simp only [exec, execRelease, State.whenLive_of_live hl] at h
    cases h; exact .release hl rfl
  | decrypt buf =>
    simp only [exec, execDecrypt, State.whenLive_of_live hl] at h
    rcases State.whenBound_next h with ⟨hb, h⟩ | ⟨_, rfl⟩
    · rcases State.decryptChecked_next h with rfl | rfl | ⟨_, _, _, _, _, _, e⟩
      · exact .raise _ hl hs
      · exact .raise _ hl hs
      · cases e; exact .decrypt buf _ hl rfl hb
    · exact .raise _ hl hs
  | decode buf =>
    simp only [exec, execDecode, State.whenLive_of_live hl, State.decodeChecked] at h
    split at h
    · cases h; exact .raise _ hl hs
    · rcases State.runDecoder_cases s .decode buf with ⟨w, e⟩ | e <;> rw [e] at h <;> cases h
      · exact .decode buf w hl rfl
      · exact .raise _ hl hs
  | pollDec =>
    have hp : Polls .pollDec := .inl rfl
    simp only [exec, execPollDec, State.whenLive_of_live hl] at h
    rcases State.whenBound_next h with ⟨_, h⟩ | ⟨_, rfl⟩
    · refine State.afterPull_execCase hl hp h fun buf ha e => ?_
      rcases State.decryptChecked_next e with rfl | rfl | ⟨_, _, _, _, _, _, e⟩
      · exact .lost _ buf hl hp ha
      · exact .lost _ buf hl hp ha
      · cases e; exact .item _ buf hl hp ha
    · exact .raise _ hl hs
  | pollEvt =>
    have hp : Polls .pollEvt := .inr (.inl rfl)
    simp only [exec, execPollEvt, State.whenLive_of_live hl] at h
    rcases State.afterPull_cases s (id : State → State) (fun buf s => s.decodeChecked .pollEvt buf) with
      ⟨ha, e⟩ | ⟨ha, e⟩ | ⟨buf, ha, e⟩ <;> rw [e] at h
    · cases h; exact .notReady hl hp ha
    · cases h; exact .exhausted hl hp ha
    · rw [State.decodeChecked] at h
      split at h
      · cases h; exact .lost _ buf hl hp ha
      · rcases State.runDecoder_cases s.pull.2.countTaken .pollEvt buf with ⟨w, e⟩ | e <;> rw [e] at h <;> cases h
        · exact .item _ buf hl hp ha
        · exact .lost _ buf hl hp ha
  | poll =>
    have hp : Polls .poll := .inr (.inr rfl)
    simp only [exec, execPoll, State.whenLive_of_live hl] at h
    rcases State.whenBound_next h with ⟨_, h⟩ | ⟨_, rfl⟩
    · refine State.afterPull_execCase hl hp h fun buf ha e => ?_
      rcases State.decryptChecked_next e with rfl | rfl | ⟨K, V, _, _, _, _, e⟩
      · exact .lost _ buf hl hp ha
      · exact .lost _ buf hl hp ha
      · rcases State.runDecoder_cases s.pull.2.countTaken .poll (decryptBuf K V buf) with ⟨w, d⟩ | d <;>
          rw [d] at e <;> cases e
        · exact .item _ buf hl hp ha
        · exact .lost _ buf hl hp ha
    · exact .raise _ hl hs
  | reservedOp0 _ _ | reservedOp9 _ _ | reservedOpA _ _ | reservedOpB _ _ | reservedOpC _ _ | reservedOpD _ _
  | reservedOpE _ _ | reservedOpF _ _ => exact State.badCommand_cases hl hs h
  | move _ _ _ _ | evtUnknown0 | evtUnknown1 | evtUnknown3 | evtUnknown4 | evtUnknown5 | evtUnknown6 | evtUnknown7
  | evtUnknown8 | evtUnknown9 | evtUnknown10 | evtUnknown11 | evtUnknown12 | evtUnknown13 | evtUnknown14
  | evtUnknown15 => exact State.runRecord_cases hl rfl h

end Sys2Proof.Machine
end

