-- ==== Sys2Proof/Laws/PerInstr.lean ====
section
/-! SUPPORT. A statement about every instruction as syntax: its encoding begins with the high nibble that its row of
spec/opcode_table.json fixes. -/
namespace Sys2Proof.Laws.RowNibble

/-- Bits [7:4] of the row's match value. -/
def rowNibble : Instr → Nat
  | .bind _ _ => 1
  | .release => 2
  | .decrypt _ => 3
  | .decode _ => 4
  | .pollDec => 5
  | .pollEvt => 6
  | .poll => 7
  | .status => 8
  | .reservedOp0 _ _ => 0
  | .reservedOp9 _ _ => 9
  | .reservedOpA _ _ => 10
  | .reservedOpB _ _ => 11
  | .reservedOpC _ _ => 12
  | .reservedOpD _ _ => 13
  | .reservedOpE _ _ => 14
  | .reservedOpF _ _ => 15
  | .move _ _ _ _ => 2
  | .evtUnknown0 => 0
  | .evtUnknown1 => 1
  | .evtUnknown3 => 3
  | .evtUnknown4 => 4
  | .evtUnknown5 => 5
  | .evtUnknown6 => 6
  | .evtUnknown7 => 7
  | .evtUnknown8 => 8
  | .evtUnknown9 => 9
  | .evtUnknown10 => 10
  | .evtUnknown11 => 11
  | .evtUnknown12 => 12
  | .evtUnknown13 => 13
  | .evtUnknown14 => 14
  | .evtUnknown15 => 15

/-- The first byte of the encoding has the row's high nibble. -/
def Statement (i : Instr) : Prop := (encode i).head?.map (fun b => b.toNat / 16) = some (rowNibble i)

/-- A command byte has its operation as its high nibble. -/
theorem cmdByte_high : ∀ op low : BitVec 4, (cmdByte op low).toNat / 16 = op.toNat := by decide

/-- The first byte of a move record has the type 2 as its high nibble. -/
theorem moveWord_high (serial : Byte) (face : BitVec 4) (prime : Bool) (elapsed : BitVec 16) :
    ((moveWord serial face prime elapsed).extractLsb' 56 8).toNat / 16 = 2 := by
  have h : ((moveWord serial face prime elapsed).extractLsb' 56 8).extractLsb' 4 4 = 2#4 := by
    apply BitVec.eq_of_getLsbD_eq
    intro i hi
    have e := sbit_moveRecord serial face prime elapsed (i := 3 - i) (by omega)
    rw [sbit_beBytes _ (by omega), if_pos (by omega), show 63 - (3 - i) = 56 + (4 + i) by omega,
      show 3 - (3 - i) = i by omega] at e
    rw [BitVec.getLsbD_extractLsb', BitVec.getLsbD_extractLsb', e]
    simp [hi, show 4 + i < 8 by omega]
  have e : ∀ b : Byte, b.extractLsb' 4 4 = 2#4 → b.toNat / 16 = 2 := by decide
  exact e _ h

theorem bind (fam : Family) (addr : Bytes) : Statement (.bind fam addr) := by
  cases fam <;> exact congrArg some (cmdByte_high _ _)
theorem release : Statement .release := rfl
theorem decrypt (buf : Bytes) : Statement (.decrypt buf) := rfl
theorem decode (buf : Bytes) : Statement (.decode buf) := rfl
theorem pollDec : Statement .pollDec := rfl
theorem pollEvt : Statement .pollEvt := rfl
theorem poll : Statement .poll := rfl
theorem status : Statement .status := rfl
theorem reservedOp0 (low : BitVec 4) (payload : Bytes) : Statement (.reservedOp0 low payload) := congrArg some (cmdByte_high _ _)
theorem reservedOp9 (low : BitVec 4) (payload : Bytes) : Statement (.reservedOp9 low payload) := congrArg some (cmdByte_high _ _)
theorem reservedOpA (low : BitVec 4) (payload : Bytes) : Statement (.reservedOpA low payload) := congrArg some (cmdByte_high _ _)
theorem reservedOpB (low : BitVec 4) (payload : Bytes) : Statement (.reservedOpB low payload) := congrArg some (cmdByte_high _ _)
theorem reservedOpC (low : BitVec 4) (payload : Bytes) : Statement (.reservedOpC low payload) := congrArg some (cmdByte_high _ _)
theorem reservedOpD (low : BitVec 4) (payload : Bytes) : Statement (.reservedOpD low payload) := congrArg some (cmdByte_high _ _)
theorem reservedOpE (low : BitVec 4) (payload : Bytes) : Statement (.reservedOpE low payload) := congrArg some (cmdByte_high _ _)
theorem reservedOpF (low : BitVec 4) (payload : Bytes) : Statement (.reservedOpF low payload) := congrArg some (cmdByte_high _ _)
theorem move (serial : Byte) (face : BitVec 4) (prime : Bool) (elapsed : BitVec 16) : Statement (.move serial face prime elapsed) :=
  congrArg some (moveWord_high serial face prime elapsed)
theorem evtUnknown0 : Statement .evtUnknown0 := rfl
theorem evtUnknown1 : Statement .evtUnknown1 := rfl
theorem evtUnknown3 : Statement .evtUnknown3 := rfl
theorem evtUnknown4 : Statement .evtUnknown4 := rfl
theorem evtUnknown5 : Statement .evtUnknown5 := rfl
theorem evtUnknown6 : Statement .evtUnknown6 := rfl
theorem evtUnknown7 : Statement .evtUnknown7 := rfl
theorem evtUnknown8 : Statement .evtUnknown8 := rfl
theorem evtUnknown9 : Statement .evtUnknown9 := rfl
theorem evtUnknown10 : Statement .evtUnknown10 := rfl
theorem evtUnknown11 : Statement .evtUnknown11 := rfl
theorem evtUnknown12 : Statement .evtUnknown12 := rfl
theorem evtUnknown13 : Statement .evtUnknown13 := rfl
theorem evtUnknown14 : Statement .evtUnknown14 := rfl
theorem evtUnknown15 : Statement .evtUnknown15 := rfl

end Sys2Proof.Laws.RowNibble
end

