-- ==== Sys2Proof/Laws/Step.lean ====
section
/-! SUPPORT. Everything a step can do, said once. -/
namespace Sys2Proof.Machine

/-- A rejected command of a live block is `BAD_COMMAND`, a rejected record `InvalidLength`; a faulted block says so. -/
theorem rejected_cases {e : DecodeError} {s t : State} (h : rejected e s = .next t) :
    (¬ s.Live ∧ t = { s with work := none, out := .faulted s.fault :: s.out }) ∨
    (s.Live ∧ (e = .emptyRecord ∨ e = .shortMove) ∧ t = s.delivered 1#32) ∨
    (s.Live ∧ e ≠ .emptyRecord ∧ e ≠ .shortMove ∧ t = s.raiseFault .badCommand) := by
  cases e
  case emptyRecord | shortMove =>
    simp only [rejected, State.invalidLength, State.runRecord] at h
    rcases State.whenLive_next h with ⟨hl, e⟩ | ⟨hl, rfl⟩
    · cases e
      exact .inr (.inl ⟨hl, by simp, State.deliver_eq_delivered s 1#32⟩)
    · exact .inl ⟨hl, rfl⟩
  all_goals
    simp only [rejected, State.badCommand] at h
    rcases State.whenLive_next h with ⟨hl, e⟩ | ⟨hl, rfl⟩
    · cases e
      exact .inr (.inr ⟨hl, by simp, by simp, rfl⟩)
    · exact .inl ⟨hl, rfl⟩

theorem decodeLowZero_error {low : BitVec 4} {r : Except DecodeError Instr} {e : DecodeError}
    (h : decodeLowZero low r = .error e) : e = .reservedBits ∨ e = .famBit ∨ r = .error e := by
  unfold decodeLowZero at h
  split at h
  · cases h; exact .inl rfl
  · split at h
    · cases h; exact .inr (.inl rfl)
    · exact .inr (.inr h)

theorem decodeNoPayload_error {payload : Bytes} {i : Instr} {e : DecodeError}
    (h : decodeNoPayload payload i = .error e) : e = .payloadNotEmpty := by
  cases payload with
  | nil => cases h
  | cons _ _ => cases h; rfl

/-- The names a command is rejected by are not those of a record. -/
theorem decodeCommand_error {cmd : Byte} {payload : Bytes} {e : DecodeError}
    (h : decodeCommand cmd payload = .error e) : e ≠ .emptyRecord ∧ e ≠ .shortMove := by
  unfold decodeCommand at h
  dsimp only at h
  split at h
  all_goals first
    | cases h
    | (rcases decodeLowZero_error h with rfl | rfl | h
       · simp
       · simp
       · first
           | cases h
           | (rw [decodeNoPayload_error h]; simp))
    | (split at h
       · cases h; simp
       · split at h <;> cases h; simp)

/-- The names a record is rejected by. -/
theorem decodeRecord_error {buf : Bytes} {e : DecodeError} (h : decodeRecord buf = .error e) :
    (e = .emptyRecord ∧ buf = []) ∨ (e = .shortMove ∧ sbits buf 0 4 = 2#4 ∧ buf.length < 8) := by
  unfold decodeRecord at h
  split at h
  · cases h; exact .inl ⟨rfl, by simpa using ‹buf.length = 0›⟩
  · split at h
    all_goals first
      | exact absurd h (by simp)
      | (split at h
         · cases h
           exact .inr ⟨rfl, by apply BitVec.eq_of_toNat_eq; assumption, by omega⟩
         · cases h)

/-- The next states of a step. -/
inductive StepCase (s : State) : State → Prop
  | idle : s.work = none → s.inbox = [] → StepCase s s
  | reset (rest : List HostInput) : s.work = none → s.inbox = .reset :: rest →
      StepCase s (State.resetBlock { s with inbox := rest })
  | command (cmd : Byte) (payload : Bytes) (rest : List HostInput) (i : Instr) (t : State) : s.work = none →
      s.inbox = .command cmd payload :: rest → decodeCommand cmd payload = .ok i →
      ExecCase i { s with inbox := rest } t → StepCase s t
  /-- a command R74 lets be none -/
  | badCommand (cmd : Byte) (payload : Bytes) (rest : List HostInput) : s.work = none →
      s.inbox = .command cmd payload :: rest → s.Live → StepCase s (State.raiseFault { s with inbox := rest } .badCommand)
  | badCommandFaulted (cmd : Byte) (payload : Bytes) (rest : List HostInput) : s.work = none →
      s.inbox = .command cmd payload :: rest → ¬ s.Live →
      StepCase s { s with inbox := rest, out := .faulted s.fault :: s.out }
  | record (w : WorkBuf) (i : Instr) (t : State) : s.work = some w → decodeRecord w.bytes = .ok i → ExecCase i s t →
      StepCase s t
  /-- a record too short for its discriminant or its length -/
  | shortRecord (w : WorkBuf) : s.work = some w → s.Live → StepCase s (s.delivered 1#32)
  | shortRecordFaulted (w : WorkBuf) : s.work = some w → ¬ s.Live →
      StepCase s { s with work := none, out := .faulted s.fault :: s.out }

/-- Every next state of a step is one of the cases. -/
theorem step_cases {s t : State} (h : step s = .next t) : StepCase s t := by
  unfold step fetch at h
  cases hw : s.work with
  | some w =>
    cases hd : decodeRecord w.bytes with
    | ok i =>
      simp only [hw, Sys2Proof.decode, hd, Fetched.ofDecoded] at h
      exact .record w i t hw hd (exec_cases h)
    | error e =>
      simp only [hw, Sys2Proof.decode, hd, Fetched.ofDecoded] at h
      rcases rejected_cases h with ⟨hl, rfl⟩ | ⟨hl, _, rfl⟩ | ⟨_, h1, h2, _⟩
      · exact .shortRecordFaulted w hw hl
      · exact .shortRecord w hw hl
      · rcases decodeRecord_error hd with ⟨he, _⟩ | ⟨he, _⟩
        · exact absurd he h1
        · exact absurd he h2
  | none =>
    cases hi : s.inbox with
    | nil =>
      simp only [hw, hi] at h
      cases h
      exact .idle hw hi
    | cons a rest =>
      cases a with
      | reset =>
        simp only [hw, hi] at h
        cases h
        exact .reset rest hw hi
      | command cmd payload =>
        cases hd : decodeCommand cmd payload with
        | ok i =>
          simp only [hw, hi, Sys2Proof.decode, hd, Fetched.ofDecoded] at h
          exact .command cmd payload rest i t hw hi hd (by simpa only [hw] using exec_cases h)
        | error e =>
          simp only [hw, hi, Sys2Proof.decode, hd, Fetched.ofDecoded] at h
          obtain ⟨h1, h2⟩ := decodeCommand_error hd
          rcases rejected_cases h with ⟨hl, rfl⟩ | ⟨_, he, _⟩ | ⟨hl, _, _, rfl⟩
          · have := StepCase.badCommandFaulted cmd payload rest hw hi hl
            rw [hw] at this
            exact this
          · exact (he.elim h1 h2).elim
          · have := StepCase.badCommand cmd payload rest hw hi hl
            rw [hw] at this
            exact this

end Sys2Proof.Machine
end

