-- ==== Sys2Proof/Tests/Slice0.lean ====
section
/-! SUPPORT. Tests: decoding of hand-written words, one-step tests with the results of spec/95_test_vectors.md, and a
witness for the hypotheses of every statement that has some. Expected results come from the spec, never from the
model. -/
namespace Sys2Proof.Tests
open Sys2Proof Sys2Proof.Machine

/-! ### Helpers -/

/-- The `n` bytes of a number, most significant first, so that a buffer is written as in the spec. -/
def hx (n w : Nat) : Bytes := (leBytes n w).reverse

/-- A block, byte 0 leftmost. -/
def blk (w : Nat) : Block := Block.ofList (hx 16 w)

/-- The bytes 00, 01, .. (n-1) of the test vectors. -/
def ramp (n : Nat) : Bytes := (List.range n).map (BitVec.ofNat 8)

/-- The test key table of 95_test_vectors.md section 2. -/
def TT : KeyTable :=
  { fam0 := { key := blk 0x2B7E151628AED2A6ABF7158809CF4F3C, iv := blk 0x000102030405060708090A0B0C0D0E0F }
    fam1 := { key := blk 0xFFFE8000017F10111213141516171819, iv := blk 0xFF00FF00FF00A0A1A2A3A4A5A6A7A8A9 } }

/-- Reset with the test key table and no length bound. -/
def base : State := { State.reset with keyTable := TT, maxBufLen := none }

/-- Address A1 of 95_test_vectors.md: AB:CD:EF:12:34:56. -/
def A1 : Bytes := hx 6 0xABCDEF123456

/-- Effective key and IV of session S1 (95_test_vectors.md section 4). -/
def K1 : Block := blk 0x81B22706F55AD2A6ABF7158809CF4F3C
def V1 : Block := blk 0x563514F2D1B0060708090A0B0C0D0E0F

/-- Session S1, bound. -/
def s1 : State := { base with bound := true, effKey := some K1, effIv := some V1 }

/-- Session S1 with `MAX_BUF_LEN = 32`. -/
def s1max32 : State := { s1 with maxBufLen := some 32 }

/-- P1's ciphertext and plaintext (95_test_vectors.md section 6). -/
def c1 : Bytes := hx 20 0xD0320266EA81D2C369205AEE18FB22366A5D881B
def p1 : Bytes := hx 20 0x2050000000000BB8000000000000000000000000

/-- P7's ciphertext: its plaintext has face code 6. -/
def c7 : Bytes := hx 20 0x1894F5269D9DC389455CA5D56CCB7D9DAD8BF8B9

/-- The record of the spec's worked example W1. -/
def w1 : Bytes := hx 8 0x2050000000000BB8

/-- The next state of an outcome. -/
def next : Answer → Option State
  | .next t => some t
  | .fault _ => none
  | .refused _ => none

/-- What the host sees after an outcome: the newest response, `BOUND` and `FAULT`. -/
def seen (a : Answer) : Option (Option Response × Bool × BitVec 4) :=
  (next a).map fun t => (t.out.head?, t.bound, t.fault)

/-- The newest response and the counters. -/
def counted (a : Answer) : Option (Option Response × Nat × Nat) :=
  (next a).map fun t => (t.out.head?, t.upTaken, t.itemsOut)

/-- The step on one command. -/
def issue (s : State) (cmd : Byte) (payload : Bytes) : Answer := step { s with inbox := [.command cmd payload] }

/-- An upstream script of one item. -/
def offering (s : State) (buf : Bytes) : State := { s with upstream := [.ready buf] }

/-! ### Well-formedness -/

/-- R73: a `BIND` address of five bytes, of seven, or of none is refused; six are not. -/
theorem test_wf_bind_address_length :
    (Instr.bind .fam0 (hx 5 0xABCDEF1234)).wf = false ∧ (Instr.bind .fam1 (hx 7 0xABCDEF12345678)).wf = false ∧
      (Instr.bind .fam0 []).wf = false ∧ (Instr.bind .fam0 A1).wf = true := by decide

/-! ### Decoding: one hand-written word for every constructor -/

/-- Commands, R70 and R71: operation in bits [7:4], FAM in bit 0. -/
theorem test_decode_commands :
    decodeCommand 0b00010000#8 A1 = .ok (.bind .fam0 A1) ∧
    decodeCommand 0b00010001#8 A1 = .ok (.bind .fam1 A1) ∧
    decodeCommand 0b00100000#8 [] = .ok .release ∧
    decodeCommand 0b00110000#8 (ramp 17) = .ok (.decrypt (ramp 17)) ∧
    decodeCommand 0b01000000#8 w1 = .ok (.decode w1) ∧
    decodeCommand 0b01010000#8 [] = .ok .pollDec ∧
    decodeCommand 0b01100000#8 [] = .ok .pollEvt ∧
    decodeCommand 0b01110000#8 [] = .ok .poll ∧
    decodeCommand 0b10000000#8 [] = .ok .status := by decide

/-- Reserved operations, R71: 0x0 and 0x9 to 0xF, any low nibble. -/
theorem test_decode_reserved :
    decodeCommand 0b00001111#8 [] = .ok (.reservedOp0 0b1111#4 []) ∧
    decodeCommand 0b10010000#8 [] = .ok (.reservedOp9 0b0000#4 []) ∧
    decodeCommand 0b10100001#8 [] = .ok (.reservedOpA 0b0001#4 []) ∧
    decodeCommand 0b10110010#8 [] = .ok (.reservedOpB 0b0010#4 []) ∧
    decodeCommand 0b11000100#8 [] = .ok (.reservedOpC 0b0100#4 []) ∧
    decodeCommand 0b11011000#8 [] = .ok (.reservedOpD 0b1000#4 []) ∧
    decodeCommand 0b11100011#8 [] = .ok (.reservedOpE 0b0011#4 []) ∧
    decodeCommand 0b11111111#8 [0x00#8] = .ok (.reservedOpF 0b1111#4 [0x00#8]) := by decide

/-- R75: type 0010, serial 10000001, face 0100, prime 1, thirty reserved bits (set here), elapsed 1000000000000001, one
reserved bit (set here). -/
theorem test_decode_move :
    decodeRecord [0b00101000#8, 0b00010100#8, 0b11111111#8, 0b11111111#8, 0b11111111#8, 0b11111111#8, 0b00000000#8,
      0b00000011#8] = .ok (.move 0b10000001#8 0b0100#4 true 0b1000000000000001#16) := by decide

/-- R76: each other discriminant, from one byte on. -/
theorem test_decode_unknown :
    decodeRecord [0b00000101#8] = .ok .evtUnknown0 ∧ decodeRecord [0b00010101#8] = .ok .evtUnknown1 ∧
    decodeRecord [0b00110101#8] = .ok .evtUnknown3 ∧ decodeRecord [0b01000101#8] = .ok .evtUnknown4 ∧
    decodeRecord [0b01010101#8] = .ok .evtUnknown5 ∧ decodeRecord [0b01100101#8] = .ok .evtUnknown6 ∧
    decodeRecord [0b01110101#8] = .ok .evtUnknown7 ∧ decodeRecord [0b10000101#8] = .ok .evtUnknown8 ∧
    decodeRecord [0b10010101#8] = .ok .evtUnknown9 ∧ decodeRecord [0b10100101#8] = .ok .evtUnknown10 ∧
    decodeRecord [0b10110101#8] = .ok .evtUnknown11 ∧ decodeRecord [0b11000101#8] = .ok .evtUnknown12 ∧
    decodeRecord [0b11010101#8] = .ok .evtUnknown13 ∧ decodeRecord [0b11100101#8] = .ok .evtUnknown14 ∧
    decodeRecord [0b11110101#8] = .ok .evtUnknown15 := by decide

/-- What R74, R184 and R187 let be no instruction, by name. -/
theorem test_decode_rejects :
    decodeCommand 0x13#8 A1 = .error .reservedBits ∧ decodeCommand 0x31#8 (ramp 17) = .error .famBit ∧
    decodeCommand 0x10#8 (hx 5 0xABCDEF1234) = .error .bindLength ∧
    decodeCommand 0x80#8 [0x00#8] = .error .payloadNotEmpty ∧
    decodeRecord [] = .error .emptyRecord ∧ decodeRecord (hx 7 0x2050000000000B) = .error .shortMove := by decide

/-- Words of the opcode table, and the step from reset on one of them: RELEASE, BIND with a zero payload, MOVE. -/
theorem test_table_words :
    decodeTableWord 8 0x20 = some .release ∧ decodeTableWord 8 0x11 = some (.bind .fam1 [0#8, 0#8, 0#8, 0#8, 0#8, 0#8]) ∧
    decodeTableWord 64 0xB80B000000005020 = some (.move 5#8 0#4 false 1500#16) ∧
    (next (step (State.reset.withFetchWord 8 0x20))).map (·.out) = some [.ack] := by decide

/-- R85, its examples. -/
theorem test_asm :
    asm (.bind .fam0 A1) = some "BIND 0, AB:CD:EF:12:34:56" ∧ asm .pollDec = some "POLL_DEC" ∧
    asm (.decode (hx 3 0x206180)) = some "DECODE 20 61 80" := by decide

/-! ### The cipher and the key derivation -/

/-- Vector B1: the inverse cipher. -/
theorem test_invCipher_B1 :
    invCipher (blk 0x000102030405060708090A0B0C0D0E0F) (blk 0x69C4E0D86A7B0430D8CDB78070B4C55A) =
      blk 0x00112233445566778899AABBCCDDEEFF := by decide +kernel

/-- Vector B4: the forward cipher. -/
theorem test_cipher_B4 :
    cipher (blk 0x2B7E151628AED2A6ABF7158809CF4F3C) (blk 0x6BC1BEE22E409F96E93D7E117393172A) =
      blk 0x3AD77BB40D7A3660A89ECAF32466EF97 := by decide +kernel

/-- Vector B3: the key expansion. -/
theorem test_roundKey_B3 :
    roundKey (blk 0x000102030405060708090A0B0C0D0E0F) 1 = blk 0xD6AA74FDD2AF72FADAA678F1D6AB76FE ∧
    roundKey (blk 0x000102030405060708090A0B0C0D0E0F) 10 = blk 0x13111D7FE3944A17F307A78B4D2B30C5 := by decide +kernel

/-- Vectors S4 and S9: family 1 under 00:FF:80:01:02:00, family 0 under 01:02:03:04:05:FF. -/
theorem test_salting :
    effectiveKey TT .fam1 (hx 6 0x00FF80010200) = blk 0x00018180017F10111213141516171819 ∧
    effectiveIv TT .fam1 (hx 6 0x00FF80010200) = blk 0x000201800000A0A1A2A3A4A5A6A7A8A9 ∧
    effectiveKey TT .fam0 (hx 6 0x0102030405FF) = blk 0x2B8319192AAFD2A6ABF7158809CF4F3C := by decide +kernel

/-- Vectors X1 (overlapping blocks), X5 (a middle byte), and P5's device side. -/
theorem test_decryptBuf :
    decryptBuf K1 V1 (ramp 17) = hx 17 0x85AE5B268126E5C11D63067C89926D62D0 ∧
    decryptBuf K1 V1 (ramp 33) = hx 33 0x5EDD8078B3DA40244997B555C7F26CEF102A49514554991292C87F326E22B049E0 ∧
    encryptBuf K1 V1 (hx 17 0x2082000000002468000000000000000000) = hx 17 0x0B73D2CDBF7E1D91448C57C4DB431DAE1A := by
  decide +kernel

/-! ### The commands, one step each -/

/-- Section 4: from reset, BIND 0, A1 answers ACK and holds S1. -/
theorem test_bind :
    (next (issue base 0x10#8 A1)).map (fun t => (t.out, t.bound, t.effKey, t.effIv)) =
      some ([.ack], true, some K1, some V1) := by decide +kernel

/-- Section 4: BIND while bound is FAULTED(4); a payload of five bytes is FAULTED(5). -/
theorem test_bind_faults :
    seen (issue s1 0x11#8 A1) = some (some (.faulted 4#4), true, 4#4) ∧
    seen (issue base 0x10#8 (hx 5 0xABCDEF1234)) = some (some (.faulted 5#4), false, 5#4) := by decide +kernel

/-- R105: RELEASE drops the session; Section 4: from reset it answers ACK. -/
theorem test_release :
    (next (issue s1 0x20#8 [])).map (fun t => (t.out, t.bound, t.effKey, t.effIv)) = some ([.ack], false, none, none) ∧
    seen (issue base 0x20#8 []) = some (some .ack, false, 0#4) := by decide

/-- R106: STATUS after reset, after BIND, and after a fault in a bound session. -/
theorem test_status :
    seen (issue base 0x80#8 []) = some (some (.status 0x00#8), false, 0#4) ∧
    seen (issue s1 0x80#8 []) = some (some (.status 0x01#8), true, 0#4) ∧
    seen (issue { s1 with fault := 1#4 } 0x80#8 []) = some (some (.status 0x11#8), true, 1#4) := by decide

/-- Vector X1. -/
theorem test_decrypt :
    seen (issue s1 0x30#8 (ramp 17)) = some (some (.buffer (hx 17 0x85AE5B268126E5C11D63067C89926D62D0)), true, 0#4) := by
  decide +kernel

/-- Vectors X12 and X14: short, and the order of the checks. -/
theorem test_decrypt_faults :
    seen (issue s1 0x30#8 (ramp 16)) = some (some (.faulted 1#4), true, 1#4) ∧
    seen (issue base 0x30#8 (ramp 16)) = some (some (.faulted 3#4), false, 3#4) := by decide

/-- W1 and table D4: the worked example, all field extremes, bits 47 and 62. -/
theorem test_decode :
    seen (issue base 0x40#8 w1) = some (some (.result 0x05DC0500#32), false, 0#4) ∧
    seen (issue base 0x40#8 (hx 8 0x2FF580000001FFFE)) = some (some (.result 0xFFFFFFD0#32), false, 0#4) ∧
    seen (issue base 0x40#8 (hx 8 0x2A52000000010002)) = some (some (.result 0x8001A520#32), false, 0#4) := by decide

/-- Table D5, table D2's empty buffer, and vector T15: the order of the checks. -/
theorem test_decode_failures :
    seen (issue base 0x40#8 [0x30#8]) = some (some (.result 2#32), false, 0#4) ∧
    seen (issue base 0x40#8 (hx 2 0x202F)) = some (some (.result 1#32), false, 0#4) ∧
    seen (issue base 0x40#8 []) = some (some (.result 1#32), false, 0#4) ∧
    seen (issue base 0x40#8 (hx 8 0x200F000000000000)) = some (some (.faulted 2#4), false, 2#4) ∧
    seen (issue s1max32 0x40#8 (ramp 33)) = some (some (.faulted 6#4), true, 6#4) := by decide

/-- Vector P1 as POLL_DEC, and P7's plaintext, which POLL_DEC does not look at. -/
theorem test_pollDec :
    counted (issue (offering s1 c1) 0x50#8 []) = some (some (.itemBuffer p1), 1, 1) ∧
    counted (issue (offering s1 c7) 0x50#8 []) =
      some (some (.itemBuffer (hx 20 0x20A6000000000002000000000000000000000000)), 1, 1) := by decide +kernel

/-- Program 3, step 2: a 16-byte item is pulled and lost. -/
theorem test_pollDec_short : counted (issue (offering s1 (ramp 16)) 0x50#8 []) = some (some (.faulted 1#4), 1, 0) := by
  decide

/-- Vectors T5 and T6: no session is needed; an empty item is an InvalidLength item. -/
theorem test_pollEvt :
    counted (issue (offering base w1) 0x60#8 []) = some (some (.itemResult 0x05DC0500#32), 1, 1) ∧
    counted (issue (offering base []) 0x60#8 []) = some (some (.itemResult 1#32), 1, 1) := by decide

/-- R163 and T3: exhaustion is passed on and nothing is counted. -/
theorem test_pollEvt_exhausted :
    counted (issue { base with upstream := [.exhausted] } 0x60#8 []) = some (some .exhausted, 0, 0) := by decide

/-- Vectors P1 and P7. -/
theorem test_poll :
    counted (issue (offering s1 c1) 0x70#8 []) = some (some (.itemResult 0x05DC0500#32), 1, 1) ∧
    counted (issue (offering s1 c7) 0x70#8 []) = some (some (.faulted 2#4), 1, 0) := by decide +kernel

/-- Vectors T4 (no pull) and T14 (too long, after the pull). -/
theorem test_poll_faults :
    (next (issue (offering base c1) 0x70#8 [])).map (fun t => (t.fault, t.upstream, t.upTaken)) =
      some (3#4, [.ready c1], 0) ∧
    counted (issue (offering s1max32 (ramp 33)) 0x70#8 []) = some (some (.faulted 6#4), 1, 0) := by decide

/-- Vectors T9 to T12: the dispatch faults. -/
theorem test_bad_commands :
    seen (issue base 0x00#8 []) = some (some (.faulted 5#4), false, 5#4) ∧
    seen (issue base 0x90#8 []) = some (some (.faulted 5#4), false, 5#4) ∧
    seen (issue base 0x31#8 (ramp 17)) = some (some (.faulted 5#4), false, 5#4) ∧
    seen (issue base 0x80#8 [0x00#8]) = some (some (.faulted 5#4), false, 5#4) := by decide

/-- Vector T8: a faulted block answers POLL and RELEASE with the old code and takes nothing. -/
theorem test_faulted_block :
    counted (issue (offering { s1 with fault := 1#4 } c1) 0x70#8 []) = some (some (.faulted 1#4), 0, 0) ∧
    seen (issue { s1 with fault := 1#4 } 0x20#8 []) = some (some (.faulted 1#4), true, 1#4) := by decide

/-- Program 3, step 6: reset clears the fault and the session, and leaves the upstream. -/
theorem test_reset :
    (next (step { offering s1 c1 with fault := 1#4, upTaken := 1, inbox := [.reset] })).map
      (fun t => (t.bound, t.effKey, t.fault, t.upTaken, t.upstream)) = some (false, none, 0#4, 0, [.ready c1]) := by decide

/-- A record at the decoder, for `DECODE` and for a poll (R80, table D4). -/
theorem test_record :
    counted (exec (.move 0xFF#8 5#4 true 0xFFFF#16) (base.own .decode [])) = some (some (.result 0xFFFFFFD0#32), 0, 0) ∧
    counted (exec (.move 0xFF#8 5#4 true 0xFFFF#16) (base.own .poll [])) = some (some (.itemResult 0xFFFFFFD0#32), 0, 1) ∧
    counted (exec .evtUnknown7 (base.own .pollEvt [])) = some (some (.itemResult 2#32), 0, 1) := by decide

/-- R80: the codes and bodies of responses. -/
theorem test_responses :
    (Response.itemResult 0x05DC0500#32).rsp = 7#4 ∧
    (Response.itemResult 0x05DC0500#32).body = [0x05#8, 0xDC#8, 0x05#8, 0x00#8] ∧
    (Response.faulted 6#4).body = [0x06#8] := by decide

/-! ### Witnesses: concrete values that meet the hypotheses of each statement that has some, clause by clause -/

theorem base_fits (buf : Bytes) : base.Fits buf := fun _ h => by cases h

theorem s1_fits (buf : Bytes) : s1.Fits buf := fun _ h => by cases h

theorem s1_session : s1.Session K1 V1 := ⟨rfl, rfl, rfl⟩

/-- At the bound: 32 bytes. -/
theorem s1max32_fits : s1max32.Fits (ramp 32) := fun m h => by cases h; decide

/-- One above the bound: 33 bytes. -/
theorem s1max32_not_fits : ¬ s1max32.Fits (ramp 33) := fun h => absurd (h 32 rfl) (by decide)

theorem witness_DecodeInvertsEncode : (Instr.bind .fam1 A1).wf = true ∧ (Instr.move 0xFF#8 15#4 true 0xFFFF#16).wf = true := by
  decide

theorem witness_CommandBytesDetermined :
    decodeCommand 0x11#8 A1 = .ok (.bind .fam1 A1) ∧ decodeCommand 0xFF#8 [] = .ok (.reservedOpF 0xF#4 []) := by decide

/-- The first and the last stream bit of a byte. -/
theorem witness_StreamBitsBigEndian : 0 < 8 * [0x80#8].length ∧ 7 < 8 * [0x80#8].length := by decide

/-- W3's buffers: 8 bytes, and 20 bytes with other reserved bits, bit 63 among them. -/
theorem witness_ReservedBitsNeverMatter :
    let b' := hx 20 0x20507FFFFFFE0BB9AAAAAAAAAAAAAAAAAAAAAAAA
    8 ≤ w1.length ∧ 8 ≤ b'.length ∧ sbits w1 0 4 = 2#4 ∧ (∀ k, k < 17 → sbit w1 k = sbit b' k) ∧
      (∀ k, 47 ≤ k → k < 63 → sbit w1 k = sbit b' k) ∧ sbit w1 63 ≠ sbit b' 63 := by decide

theorem witness_StepRunsDecodedInstruction :
    (base.work = none ∧ ({ base with inbox := [.command 0x10#8 A1] } : State).inbox = .command 0x10#8 A1 :: [] ∧
      decode .command (0x10#8 :: A1) = .ok (.bind .fam0 A1)) ∧
    (base.own .poll w1).work = some { owner := .poll, bytes := w1 } ∧
      decode .record w1 = .ok (.move 5#8 0#4 false 1500#16) := by decide

/-- The wait, the empty record, and type-2 records of 1 and of 7 bytes. -/
theorem witness_StepWaitsAndRejects :
    (base.work = none ∧ base.inbox = []) ∧ State.Live (base.own .poll []) ∧
    (base.own .poll []).work = some { owner := .poll, bytes := [] } ∧
    (sbits [0x2F#8] 0 4 = 2#4 ∧ [0x2F#8].length < 8) ∧
    (sbits (hx 7 0x2050000000000B) 0 4 = 2#4 ∧ (hx 7 0x2050000000000B).length < 8) := by
  refine ⟨by decide, rfl, rfl, by decide, by decide⟩

/-- Each cause of a bad command at the edge of its range, and a good command for each operation. -/
theorem witness_DispatchIsTotal :
    State.Live { base with inbox := [.command 0x80#8 []] } ∧ base.work = none ∧
    BadCommand 0x0F#8 [] ∧ BadCommand 0x90#8 [] ∧ BadCommand 0xFF#8 [] ∧ BadCommand 0x12#8 A1 ∧ BadCommand 0x3E#8 [] ∧
    BadCommand 0x21#8 [] ∧ BadCommand 0x10#8 (hx 5 0xABCDEF1234) ∧ BadCommand 0x11#8 (hx 7 0) ∧ BadCommand 0x80#8 [0x00#8] ∧
    ¬ BadCommand 0x10#8 A1 ∧ ¬ BadCommand 0x11#8 A1 ∧ ¬ BadCommand 0x20#8 [] ∧ ¬ BadCommand 0x30#8 [] ∧
    ¬ BadCommand 0x40#8 w1 ∧ ¬ BadCommand 0x50#8 [] ∧ ¬ BadCommand 0x60#8 [] ∧ ¬ BadCommand 0x70#8 [] ∧
    ¬ BadCommand 0x80#8 [] := by
  refine ⟨rfl, rfl, ?_⟩
  refine ⟨?_, ?_, ?_, ?_, ?_, ?_, ?_, ?_, ?_, ?_, ?_, ?_, ?_, ?_, ?_, ?_, ?_, ?_⟩ <;> unfold BadCommand <;> decide

theorem witness_ResetEventRestores :
    s1.work = none ∧ ({ s1 with fault := 6#4, inbox := [.reset] } : State).inbox = .reset :: [] := by decide

/-- Six bytes of address and salt; lanes 0, 5, 6 and 15; a lane shared by two different bases. -/
theorem witness_SaltLanesModulo255 :
    A1.length = 6 ∧ (0 < 6 ∧ 5 < 6) ∧ (6 ≤ 6 ∧ 6 < 16) ∧ (6 ≤ 15 ∧ 15 < 16) ∧
    K1.get 0 = (blk 0x81000000000000000000000000000000).get 0 ∧ K1 ≠ blk 0x81000000000000000000000000000000 ∧
    (hx 6 0x560000000000).getD 0 0#8 = (hx 6 0x561111111111).getD 0 0#8 := by decide

theorem witness_BindDerivesSession :
    base.Live ∧ base.bound = false ∧ (hx 6 0).length = 6 ∧ (hx 6 0xFFFFFFFFFFFF).length = 6 :=
  ⟨rfl, rfl, by decide, by decide⟩

theorem witness_BindRefusals :
    s1.Live ∧ (A1.length = 6 ∧ s1.bound = true) ∧ (hx 5 0).length ≠ 6 ∧ (hx 7 0).length ≠ 6 :=
  ⟨rfl, by decide, by decide, by decide⟩

theorem witness_ReleaseEndsSession :
    s1.Live ∧ base.Live ∧ base.bound = false ∧ base.effKey = none ∧ base.effIv = none ∧ base.work = none :=
  ⟨rfl, rfl, rfl, rfl, rfl, rfl⟩

/-- The shortest buffer; the shortest one with a middle byte, and that byte. -/
theorem witness_DecryptTwoEndedInPlace :
    16 < (ramp 17).length ∧ 16 < (ramp 33).length ∧ (16 ≤ 16 ∧ 16 < (ramp 33).length - 16) := by decide

theorem witness_DecryptDisjointBlocks : 32 ≤ (ramp 32).length ∧ 32 ≤ (ramp 33).length := by decide

/-- Both sides of the equivalence can be met: the block before the last differs from V1, or is V1. -/
theorem witness_NotAChainedDecryption :
    32 ≤ (ramp 32).length ∧ Block.ofList (((ramp 32).drop 0).take 16) ≠ V1 ∧ 32 ≤ (V1.toList ++ ramp 16).length ∧
      Block.ofList (((V1.toList ++ ramp 16).drop 0).take 16) = V1 := by decide

/-- 17 bytes, and 32 bytes at the bound. -/
theorem witness_DecryptCompletes :
    (s1.Live ∧ s1.Session K1 V1 ∧ s1.Fits (ramp 17) ∧ 16 < (ramp 17).length) ∧
    s1max32.Live ∧ s1max32.Session K1 V1 ∧ s1max32.Fits (ramp 32) ∧ 16 < (ramp 32).length :=
  ⟨⟨rfl, s1_session, s1_fits _, by decide⟩, rfl, ⟨rfl, rfl, rfl⟩, s1max32_fits, by decide⟩

theorem witness_DecryptFaultOrder :
    (base.Live ∧ base.bound = false) ∧ (s1max32.Live ∧ s1max32.bound = true ∧ ¬ s1max32.Fits (ramp 33)) ∧
    (s1.Live ∧ s1.bound = true ∧ s1.Fits (ramp 16) ∧ (ramp 16).length ≤ 16) :=
  ⟨⟨rfl, rfl⟩, ⟨rfl, rfl, s1max32_not_fits⟩, rfl, rfl, s1_fits _, by decide⟩

theorem witness_KeyScheduleRecurrence : (4 ≤ 4 ∧ 4 ≤ 43) ∧ (4 ≤ 43 ∧ 43 ≤ 43) := by decide

/-- An invertible pair, the zero pair, and the bits 0 and 7. -/
theorem witness_SboxTablesAlgebraic :
    gmul 0x53#8 0xCA#8 = 1#8 ∧ gmul 0x01#8 0x01#8 = 1#8 ∧ (0#8 = 0#8 ∧ 0#8 = 0#8) ∧ 0 < 8 ∧ 7 < 8 := by decide

theorem witness_DecryptUndoesEncrypt : 16 < (ramp 17).length ∧ 16 < (ramp 32).length := by decide

/-- 1 byte with another discriminant, 7 and 8 bytes of type 2, and two buffers that differ in bit 63 and in length. -/
theorem witness_DiscriminantThenLength :
    ([0x30#8] ≠ [] ∧ sbits [0x30#8] 0 4 ≠ 2#4) ∧
    (hx 7 0x2050000000000B ≠ [] ∧ sbits (hx 7 0x2050000000000B) 0 4 = 2#4) ∧ (w1 ≠ [] ∧ sbits w1 0 4 = 2#4) ∧
    8 ≤ w1.length ∧ 8 ≤ (hx 9 0x2050000000000BB9FF).length ∧
    (∀ k, k < 63 → sbit w1 k = sbit (hx 9 0x2050000000000BB9FF) k) := by decide

theorem witness_MoveFieldsExtracted :
    decodeEvent w1 = .result (.ok { serial := 5#8, face := .U, prime := false, elapsed := 1500#16 }) ∧
    (let b' := hx 20 0x20507FFFFFFE0BB9AAAAAAAAAAAAAAAAAAAAAAAA
     8 ≤ w1.length ∧ 8 ≤ b'.length ∧ sbits w1 0 4 = 2#4 ∧ sbits b' 0 4 = 2#4 ∧ sbits w1 4 8 = sbits b' 4 8 ∧
       sbits w1 12 4 = sbits b' 12 4 ∧ sbit w1 16 = sbit b' 16 ∧ sbits w1 47 16 = sbits b' 47 16) := by decide

/-- Face codes 0 and 5. -/
theorem witness_DecodeMoveCompletes :
    base.Live ∧ base.Fits w1 ∧ (8 ≤ w1.length ∧ sbits w1 0 4 = 2#4 ∧ (sbits w1 12 4).toNat ≤ 5) ∧
    (let b := hx 8 0x2FF580000001FFFE
     base.Fits b ∧ 8 ≤ b.length ∧ sbits b 0 4 = 2#4 ∧ (sbits b 12 4).toNat ≤ 5) :=
  ⟨rfl, base_fits _, by decide, base_fits _, by decide⟩

theorem witness_DecodeFailuresAreResults :
    base.Live ∧ (∀ buf, base.Fits buf) ∧ ([0x30#8] ≠ [] ∧ sbits [0x30#8] 0 4 ≠ 2#4) ∧
    (hx 7 0x2050000000000B ≠ [] ∧ sbits (hx 7 0x2050000000000B) 0 4 = 2#4 ∧ (hx 7 0x2050000000000B).length < 8) ∧
    ([] : Bytes) = [] :=
  ⟨rfl, base_fits, by decide, by decide, rfl⟩

/-- 33 bytes over a bound of 32; face codes 6 and 15. -/
theorem witness_DecodeFaultOrder :
    (s1max32.Live ∧ ¬ s1max32.Fits (ramp 33)) ∧ base.Live ∧
    (let b := hx 8 0x2056000000000BB8
     base.Fits b ∧ 8 ≤ b.length ∧ sbits b 0 4 = 2#4 ∧ 6 ≤ (sbits b 12 4).toNat) ∧
    (let b := hx 8 0x200F000000000000
     base.Fits b ∧ 8 ≤ b.length ∧ sbits b 0 4 = 2#4 ∧ 6 ≤ (sbits b 12 4).toNat) :=
  ⟨⟨rfl, s1max32_not_fits⟩, rfl, ⟨base_fits _, by decide⟩, base_fits _, by decide⟩

theorem witness_CommandsRunTheirRecord :
    (offering base w1).Live ∧ (offering base w1).Fits w1 ∧ decodeRecord w1 = .ok (.move 5#8 0#4 false 1500#16) ∧
      (offering base w1).pull.1 = .ready w1 :=
  ⟨rfl, base_fits _, by decide, rfl⟩

theorem witness_MoveRecordOutcomes :
    base.Live ∧ (0#4).toNat ≤ 5 ∧ (5#4).toNat ≤ 5 ∧ 6 ≤ (6#4).toNat ∧ 6 ≤ (15#4).toNat :=
  ⟨rfl, by decide, by decide, by decide, by decide⟩

theorem witness_UnknownRecordsComplete : (base.own .poll [0x70#8]).Live ∧ base.Live := ⟨rfl, rfl⟩

theorem witness_PackIsOneToOne :
    pack (.err .invalidLength) = pack (.err .invalidLength) ∧ (pack (.err .unknownEventType)).extractLsb' 0 2 ≠ 0#2 ∧
      (pack (.ok { serial := 5#8, face := .U, prime := false, elapsed := 1500#16 })).extractLsb' 0 2 = 0#2 := by decide

theorem witness_PullTakesOneAnswer :
    (offering base w1).upstream = .ready w1 :: [] ∧ base.upstream = [] := ⟨rfl, rfl⟩

/-- Both quiet answers, for each of the three polls. -/
theorem witness_QuietAnswersPassThrough :
    (∀ a, ({ s1 with upstream := [a] } : State).Live ∧ ({ s1 with upstream := [a] } : State).pull.1 = a) ∧
    (UpAnswer.notReady = .notReady ∧ Response.notReady = .notReady) ∧ s1.bound = true :=
  ⟨fun _ => ⟨rfl, rfl⟩, ⟨rfl, rfl⟩, rfl⟩

theorem witness_PollsNeedSession :
    base.Live ∧ base.bound = false ∧ (Instr.pollDec = .pollDec ∨ Instr.pollDec = .poll) ∧
      (Instr.poll = .pollDec ∨ Instr.poll = .poll) := ⟨rfl, rfl, .inl rfl, .inr rfl⟩

/-- A 17-byte item, and a 32-byte item at the bound. -/
theorem witness_PollDecDeliversItem :
    (let s := offering s1 (ramp 17)
     s.Live ∧ s.Session K1 V1 ∧ s.pull.1 = .ready (ramp 17) ∧ s.Fits (ramp 17) ∧ 16 < (ramp 17).length) ∧
    (let s := offering s1max32 (ramp 32)
     s.Live ∧ s.Session K1 V1 ∧ s.pull.1 = .ready (ramp 32) ∧ s.Fits (ramp 32) ∧ 16 < (ramp 32).length) :=
  ⟨⟨rfl, s1_session, rfl, s1_fits _, by decide⟩, rfl, ⟨rfl, rfl, rfl⟩, rfl, s1max32_fits, by decide⟩

/-- An event, and the two failures. -/
theorem witness_PollEvtDeliversItem :
    (∀ buf, (offering base buf).Live ∧ (offering base buf).pull.1 = .ready buf ∧ (offering base buf).Fits buf) ∧
    decodeEvent w1 = .result (.ok { serial := 5#8, face := .U, prime := false, elapsed := 1500#16 }) ∧
    decodeEvent [] = .result (.err .invalidLength) ∧ decodeEvent [0x70#8] = .result (.err .unknownEventType) :=
  ⟨fun buf => ⟨rfl, rfl, base_fits buf⟩, by decide, by decide, by decide⟩

/-- P1's ciphertext under S1. -/
theorem c1_decodes :
    decodeEvent (decryptBuf K1 V1 c1) = .result (.ok { serial := 5#8, face := .U, prime := false, elapsed := 1500#16 }) := by
  decide +kernel

theorem witness_PollDeliversItem :
    let s := offering s1 c1
    s.Live ∧ s.Session K1 V1 ∧ s.pull.1 = .ready c1 ∧ s.Fits c1 ∧ 16 < c1.length ∧
      decodeEvent (decryptBuf K1 V1 c1) = .result (.ok { serial := 5#8, face := .U, prime := false, elapsed := 1500#16 }) :=
  ⟨rfl, s1_session, rfl, s1_fits _, by decide, c1_decodes⟩

/-- P7's ciphertext under S1. -/
theorem c7_faults : decodeEvent (decryptBuf K1 V1 c7) = .faceFault := by decide +kernel

/-- One state for each clause: 33 bytes over a bound of 32 (for all three polls), 16 bytes, face code 15, and P7. -/
theorem witness_PollFaultsLoseTheItem :
    (let s := offering s1max32 (ramp 33)
     s.Live ∧ s.pull.1 = .ready (ramp 33) ∧ ¬ s.Fits (ramp 33) ∧ s.bound = true) ∧
    (let s := offering s1 (ramp 16)
     s.Live ∧ s.pull.1 = .ready (ramp 16) ∧ s.Fits (ramp 16) ∧ s.bound = true ∧ (ramp 16).length ≤ 16) ∧
    (let b := hx 8 0x200F000000000000
     (offering base b).Live ∧ (offering base b).pull.1 = .ready b ∧ (offering base b).Fits b ∧
       decodeEvent b = .faceFault) ∧
    (let s := offering s1 c7
     s.Live ∧ s.pull.1 = .ready c7 ∧ s.Session K1 V1 ∧ s.Fits c7 ∧ 16 < c7.length ∧
       decodeEvent (decryptBuf K1 V1 c7) = .faceFault) :=
  ⟨⟨rfl, rfl, s1max32_not_fits, rfl⟩, ⟨rfl, rfl, s1_fits _, rfl, by decide⟩, ⟨rfl, rfl, base_fits _, by decide⟩,
    rfl, rfl, s1_session, s1_fits _, by decide, c7_faults⟩

/-- A poll that delivers its item, and one that delivers none (no session). -/
theorem witness_PollIsTheComposition :
    ((offering s1 c1).Live ∧
      ∃ t, exec .pollDec (offering s1 c1) = .next t ∧ t.out = .itemBuffer (decryptBuf K1 V1 c1) :: (offering s1 c1).out) ∧
    base.Live ∧ ∀ t p, exec .pollDec base = .next t → t.out ≠ .itemBuffer p :: base.out := by
  refine ⟨⟨rfl, _, rfl, rfl⟩, rfl, fun t p h => ?_⟩
  cases h
  simp [State.raiseFault, State.respond, base, State.reset]

theorem witness_PollNeverInvalidLength : ∃ t, exec .poll (offering s1 c1) = .next t := by
  have h : (next (exec .poll (offering s1 c1))).isSome = true := by decide +kernel
  cases e : exec .poll (offering s1 c1) with
  | next t => exact ⟨t, rfl⟩
  | fault _ => rw [e] at h; cases h
  | refused _ => rw [e] at h; cases h

/-- A stream of an event and of both failures. -/
theorem witness_EventStreamInOrder :
    let bufs : List Bytes := [w1, [0x70#8], []]
    let rs : List EventResult :=
      [.ok { serial := 5#8, face := .U, prime := false, elapsed := 1500#16 }, .err .unknownEventType, .err .invalidLength]
    let s : State := { base with upstream := bufs.map .ready, inbox := List.replicate bufs.length (.command 0x60#8 []) }
    s.Live ∧ s.work = none ∧ s.upstream = bufs.map UpAnswer.ready ∧
      s.inbox = List.replicate bufs.length (.command 0x60#8 []) ∧
      List.Forall₂ (fun b r => s.Fits b ∧ decodeEvent b = .result r) bufs rs := by
  refine ⟨rfl, rfl, rfl, rfl, ?_⟩
  exact .cons ⟨base_fits _, by decide⟩ (.cons ⟨base_fits _, by decide⟩ (.cons ⟨base_fits _, by decide⟩ .nil))

/-- W2's stream: the ciphertexts of P1, P2 and P3. -/
theorem witness_PipelineStreamInOrder :
    let bufs : List Bytes :=
      [c1, hx 20 0xA90FEF5898F5700E8B1C1942B9A87A6CEC119B17, hx 20 0xA6FBD40C545710DBAD9855E86AFCE8B591F8A07B]
    let rs : List EventResult :=
      [.ok { serial := 5#8, face := .U, prime := false, elapsed := 1500#16 }, .err .unknownEventType,
        .ok { serial := 6#8, face := .R, prime := true, elapsed := 1750#16 }]
    let s : State := { s1 with upstream := bufs.map .ready, inbox := List.replicate bufs.length (.command 0x70#8 []) }
    s.Live ∧ s.work = none ∧ s.Session K1 V1 ∧ s.upstream = bufs.map UpAnswer.ready ∧
      s.inbox = List.replicate bufs.length (.command 0x70#8 []) ∧
      List.Forall₂ (fun b r => s.Fits b ∧ 16 < b.length ∧ decodeEvent (decryptBuf K1 V1 b) = .result r) bufs rs := by
  refine ⟨rfl, rfl, s1_session, rfl, rfl, ?_⟩
  exact .cons ⟨s1_fits _, by decide, c1_decodes⟩ (.cons ⟨s1_fits _, by decide, by decide +kernel⟩
    (.cons ⟨s1_fits _, by decide, by decide +kernel⟩ .nil))

/-- An upstream whose next two answers are `Exhausted`, with no session for `POLL_EVT` and with one for all three. -/
theorem witness_FusedUpstreamStaysExhausted :
    (let s : State := { base with upstream := [.exhausted, .exhausted] }
     s.Live ∧ s.FusedFor (0 + 2) ∧ s.pull.1 = .exhausted) ∧
    (let s : State := { s1 with upstream := [.exhausted, .exhausted] }
     s.Live ∧ s.FusedFor (0 + 2) ∧ s.pull.1 = .exhausted ∧ s.bound = true) := by
  refine ⟨⟨rfl, fun n m _ hm _ => ?_, rfl⟩, rfl, fun n m _ hm _ => ?_, rfl, rfl⟩
  all_goals
    match m, hm with
    | 0, _ => rfl
    | 1, _ => rfl

theorem witness_ReservedOperationsFault : base.Live ∧ s1.Live := ⟨rfl, rfl⟩

/-- A faulted state; a malformed STATUS, and another command. -/
theorem witness_FaultedBlockRunsNothing :
    (¬ ({ s1 with fault := 1#4 } : State).Live ∧ Instr.release ≠ .status) ∧
    (let s : State := { s1 with fault := 1#4, inbox := [.command 0x80#8 [0x00#8]] }
     ¬ s.Live ∧ s.work = none ∧ s.inbox = .command 0x80#8 [0x00#8] :: [] ∧ ¬ (0x80#8 = 0x80#8 ∧ [0x00#8] = [])) :=
  ⟨⟨fun h => absurd (show (1#4 : BitVec 4) = 0#4 from h) (by decide), by decide⟩,
    fun h => absurd (show (1#4 : BitVec 4) = 0#4 from h) (by decide), rfl, rfl, by decide⟩

theorem witness_OnlyResetClearsFault :
    let s : State := { s1 with fault := 1#4, inbox := [.reset] }
    ∃ t, step s = .next t ∧ ¬ s.Live ∧ t.fault ≠ s.fault :=
  ⟨_, rfl, fun h => absurd (show (1#4 : BitVec 4) = 0#4 from h) (by decide), by decide⟩

theorem witness_FaultEntryIsPrecise :
    let s : State := { base with inbox := [.command 0x00#8 []] }
    ∃ t, step s = .next t ∧ ¬ t.Live ∧ t.fault ≠ s.fault :=
  ⟨_, rfl, fun h => absurd (show (5#4 : BitVec 4) = 0#4 from h) (by decide), by decide⟩

theorem witness_OneResponsePerInstruction : ∃ t, exec .release s1 = .next t := ⟨_, rfl⟩

theorem witness_SessionFrame : (∃ t, exec .pollEvt (offering s1 w1) = .next t) ∧ ¬ WritesSession .pollEvt :=
  ⟨⟨_, rfl⟩, (by rintro (⟨_, _, h⟩ | h) <;> cases h)⟩

/-- A command that pulls nothing, and a record of `DECODE`. -/
theorem witness_UpstreamFrame :
    (∃ t, exec (.decode w1) s1 = .next t) ∧ ¬ Polls (.decode w1) ∧ (Instr.decode w1).space = .command ∧
    (∃ t, exec .evtUnknown7 (s1.own .decode [0x70#8]) = .next t) ∧ ¬ Polls .evtUnknown7 ∧
      (s1.own .decode [0x70#8]).owner = .decode :=
  ⟨⟨_, rfl⟩, (by rintro (h | h | h) <;> cases h), rfl, ⟨_, rfl⟩, (by rintro (h | h | h) <;> cases h), rfl⟩

theorem witness_KeysAreNotRevealed : ¬ Decrypts .pollEvt ∧ ¬ Decrypts (.bind .fam0 A1) :=
  ⟨(by rintro (⟨_, h⟩ | h | h) <;> cases h), (by rintro (⟨_, h⟩ | h | h) <;> cases h)⟩

/-- States no run reaches: bound, with no key, and with a key but no IV; a 17-byte item to pull. -/
theorem witness_UnwrittenSessionReadFaults :
    (let s : State := offering { base with bound := true } (ramp 17)
     s.Live ∧ s.bound = true ∧ s.Fits (ramp 17) ∧ 16 < (ramp 17).length ∧ s.pull.1 = .ready (ramp 17) ∧
       s.effKey = none) ∧
    (let s : State := offering { base with bound := true, effKey := some K1 } (ramp 17)
     s.Live ∧ s.bound = true ∧ s.Fits (ramp 17) ∧ 16 < (ramp 17).length ∧ s.pull.1 = .ready (ramp 17) ∧
       s.effKey ≠ none ∧ s.effIv = none) :=
  ⟨⟨rfl, rfl, base_fits _, by decide, rfl, rfl⟩, rfl, rfl, base_fits _, by decide, rfl, by decide, rfl⟩

/-- A bound session meets the invariant. -/
theorem s1_inv : s1.Inv where
  key := rfl
  iv := rfl
  code := by decide
  bound17 := fun _ h => by cases h
  idle := rfl
  taken := by decide
  count := fun _ => rfl

/-- A state that meets the invariant, with a command to run. -/
theorem witness_StepKeepsInv :
    let s : State := { s1 with inbox := [.command 0x20#8 []] }
    s.Inv ∧ ∃ t, step s = .next t :=
  ⟨⟨s1_inv.key, s1_inv.iv, s1_inv.code, s1_inv.bound17, s1_inv.idle, s1_inv.taken, s1_inv.count⟩, _, rfl⟩

theorem witness_MachineNeverStops : s1.Inv := s1_inv

end Sys2Proof.Tests
end

