-- ==== Sys2Proof/Proofs/StreamBits.lean ====
section
/-! PROOFS. What a stream bit and a range of stream bits are as numbers (00_scope.md R7). -/
namespace Sys2Proof

/-- A stream bit as a number: bit `7 - i mod 8` of byte `i div 8`. -/
theorem toNat_sbit {buf : Bytes} {i : Nat} (h : i < 8 * buf.length) :
    (sbit buf i).toNat = (buf[i / 8].toNat >>> (7 - i % 8)) % 2 := by
  have hbyte : i / 8 < buf.length := by omega
  rw [sbit, List.getD_eq_getElem _ _ hbyte, BitVec.getLsbD, Nat.toNat_testBit, Nat.shiftRight_eq_div_pow]

/-- Reading one more bit doubles the range's number and adds the bit. -/
theorem toNat_sbits_succ (buf : Bytes) (lo w : Nat) :
    (sbits buf lo (w + 1)).toNat = (sbits buf lo w).toNat * 2 + (sbit buf (lo + w)).toNat := by
  rw [sbits, BitVec.toNat_concat]

/-- A range of stream bits as a big-endian sum, by induction on its width: each further bit doubles the weight of the
bits before it. -/
theorem toNat_sbits (buf : Bytes) (lo w : Nat) :
    (sbits buf lo w).toNat = ∑ k ∈ Finset.range w, (sbit buf (lo + k)).toNat * 2 ^ (w - 1 - k) := by
  induction w with
  | zero => rfl
  | succ w ih =>
    have weight : ∀ k ∈ Finset.range w,
        (sbit buf (lo + k)).toNat * 2 ^ (w - 1 - k) * 2 = (sbit buf (lo + k)).toNat * 2 ^ (w + 1 - 1 - k) := by
      intro k hk
      have hk : k < w := Finset.mem_range.mp hk
      rw [mul_assoc, ← pow_succ, show w - 1 - k + 1 = w + 1 - 1 - k by omega]
    rw [toNat_sbits_succ, ih, Finset.sum_mul, Finset.sum_congr rfl weight, Finset.sum_range_succ]
    simp

/-- Settles O3: the first part is the number of one stream bit, the second the big-endian sum over a range. -/
theorem streamBitsBigEndian : Obligations.StreamBitsBigEndian :=
  ⟨fun _ _ h => toNat_sbit h, toNat_sbits⟩

end Sys2Proof
end

