-- ==== Sys2Proof/Proofs/MoveRecords.lean ====
section
/-! PROOFS. What the two decoders read of a move record, and that they read nothing else (30_encoding.md R75, R77;
43_decode.md R182 to R185). -/
namespace Sys2Proof
open Machine

section
variable {buf : Bytes} (length_ge : 8 ≤ buf.length) (type_two : sbits buf 0 4 = 2#4)
include length_ge type_two

/-- A type-2 buffer of 8 bytes or more is accepted as a move record (R75, R76). -/
theorem decodeRecord_of_move :
    decodeRecord buf = .ok (.move (sbits buf 4 8) (sbits buf 12 4) (sbit buf 16) (sbits buf 47 16)) := by
  have nonempty : buf.length ≠ 0 := by omega
  have full : ¬ 8 * buf.length < 63 := by omega
  simp [decodeRecord, nonempty, full, type_two]

/-- A type-2 buffer of 8 bytes or more decodes to the outcome of its four fields (R182). -/
theorem decodeEvent_of_move :
    decodeEvent buf = moveOutcome (sbits buf 4 8) (sbits buf 12 4) (sbit buf 16) (sbits buf 47 16) := by
  have nonempty : buf.length ≠ 0 := by omega
  have full : ¬ 8 * buf.length < 63 := by omega
  simp [decodeEvent, nonempty, full, type_two]

end

/-- Settles O5: the type and the four fields lie in the stream bits `[0,17)` and `[47,63)`, where the buffers agree, and
both decoders read nothing else of a move record. -/
theorem reservedBitsNeverMatter : Obligations.ReservedBitsNeverMatter := by
  intro b b' length_b length_b' type_b head tail
  have type_eq : sbits b 0 4 = sbits b' 0 4 := sbits_congr fun k _ _ => head k (by omega)
  have serial_eq : sbits b 4 8 = sbits b' 4 8 := sbits_congr fun k _ _ => head k (by omega)
  have face_eq : sbits b 12 4 = sbits b' 12 4 := sbits_congr fun k _ _ => head k (by omega)
  have prime_eq : sbit b 16 = sbit b' 16 := head 16 (by omega)
  have elapsed_eq : sbits b 47 16 = sbits b' 47 16 := sbits_congr tail
  have type_b' : sbits b' 0 4 = 2#4 := type_eq ▸ type_b
  rw [decodeEvent_of_move length_b type_b, decodeEvent_of_move length_b' type_b',
    decodeRecord_of_move length_b' type_b', serial_eq, face_eq, prime_eq, elapsed_eq]
  exact ⟨rfl, rfl⟩

end Sys2Proof
end

