-- ==== Sys2Proof/Proofs/TwoEndedDecryption.lean ====
section
/-! PROOFS. What one block decrypted in place does at the start, at the end and to the other bytes of a buffer, and the
two-ended decryption made of it (41_block_decrypt.md R133). -/
namespace Sys2Proof.Machine

/-- Decrypting at offset 0 replaces the first 16 bytes and keeps the rest. -/
theorem decryptAt_zero (K V : Block) (buf : Bytes) :
    decryptAt K V buf 0 = (decryptBlock K V (Block.ofList (buf.take 16))).toList ++ buf.drop 16 := by
  rw [decryptAt, memRead, List.drop_zero, memWrite, Block.toList_length, List.take_zero, List.nil_append, Nat.zero_add]

/-- Decrypting at 16 bytes before the end keeps the bytes before and replaces the rest. -/
theorem decryptAt_last (K V : Block) {buf : Bytes} (h : 16 ≤ buf.length) :
    decryptAt K V buf (buf.length - 16) =
      buf.take (buf.length - 16) ++ (decryptBlock K V (Block.ofList (buf.drop (buf.length - 16)))).toList := by
  have read_all : memRead buf (buf.length - 16) 16 = buf.drop (buf.length - 16) :=
    List.take_of_length_le (by rw [List.length_drop]; omega)
  have nothing_after : buf.drop (buf.length - 16 + 16) = [] := List.drop_eq_nil_of_le (by omega)
  rw [decryptAt, read_all, memWrite, Block.toList_length, nothing_after, List.append_nil]

/-- Decrypting one block leaves every byte outside it alone. -/
theorem decryptAt_getD_other (K V : Block) {buf : Bytes} {a i : Nat} (h : a + 16 ≤ buf.length)
    (outside : i < a ∨ a + 16 ≤ i) (d : Byte) : (decryptAt K V buf a).getD i d = buf.getD i d :=
  memWrite_getD_other h outside d

/-- The bytes between the first 16 and the last 16 lie outside both blocks. -/
theorem decryptBuf_getD_middle (K V : Block) {buf : Bytes} {i : Nat} (first : 16 ≤ i) (last : i < buf.length - 16)
    (d : Byte) : (decryptBuf K V buf).getD i d = buf.getD i d := by
  have fits : buf.length - 16 + 16 ≤ buf.length := by omega
  have fits_mid : 0 + 16 ≤ (decryptAt K V buf (buf.length - 16)).length := by rw [decryptAt_length fits]; omega
  rw [decryptBuf, decryptAt_getD_other K V fits_mid (.inr first), decryptAt_getD_other K V fits (.inl last)]

/-- Settles O17: the write at the end forms the middle buffer, the write at offset 0 acts on that, and a byte of the
middle lies outside both. -/
theorem decryptTwoEndedInPlace : Obligations.DecryptTwoEndedInPlace := by
  intro K V buf long
  refine ⟨?_, decryptBuf_length long, fun i first last => decryptBuf_getD_middle K V first last 0#8⟩
  rw [decryptBuf, decryptAt_last K V long.le, decryptAt_zero]

end Sys2Proof.Machine
end

