-- ==== Sys2Proof/Proofs/EventDecoding.lean ====
section
/-! PROOFS. The decoder branch by branch: the discriminant, the length, then the fields of a move record (43_decode.md
R181 to R185). -/
namespace Sys2Proof
open Machine

/-- A non-empty buffer of another type is an unknown event, whatever its length (R183). -/
theorem decodeEvent_of_other_type {buf : Bytes} (nonempty : buf ≠ []) (other : sbits buf 0 4 ≠ 2#4) :
    decodeEvent buf = .result (.err .unknownEventType) := by
  rw [decodeEvent, if_neg (mt List.length_eq_zero_iff.mp nonempty), if_pos other]

/-- A type-2 buffer of fewer than 8 bytes is too short (R184). -/
theorem decodeEvent_of_short {buf : Bytes} (type_two : sbits buf 0 4 = 2#4) (short : buf.length < 8) :
    decodeEvent buf = .result (.err .invalidLength) := by
  have below63 : 8 * buf.length < 63 := by omega
  rw [decodeEvent, if_neg (not_not_intro type_two), if_pos below63, ite_self]

/-- The fields of a move record never make a decode failure: they make an event or the fault outcome (R182, R186). -/
theorem moveOutcome_ne_err (serial : Byte) (face : BitVec 4) (prime : Bool) (elapsed : BitVec 16) (f : DecodeFailure) :
    moveOutcome serial face prime elapsed ≠ .result (.err f) := by
  unfold moveOutcome
  split <;> simp

/-- An event made of four fields holds these fields, its face being the one of the face code. -/
theorem fields_of_moveOutcome_ok {serial : Byte} {face : BitVec 4} {prime : Bool} {elapsed : BitVec 16} {ev : Event}
    (h : moveOutcome serial face prime elapsed = .result (.ok ev)) :
    ev.serial = serial ∧ faceOfCode face = some ev.face ∧ ev.prime = prime ∧ ev.elapsed = elapsed := by
  unfold moveOutcome at h
  split at h
  case h_1 f code =>
    cases h
    exact ⟨rfl, code, rfl, rfl⟩
  case h_2 => cases h

/-- A type-2 buffer is `InvalidLength` exactly when it has fewer than 8 bytes (R184). -/
theorem decodeEvent_invalidLength_iff {buf : Bytes} (type_two : sbits buf 0 4 = 2#4) :
    decodeEvent buf = .result (.err .invalidLength) ↔ buf.length < 8 := by
  refine ⟨fun h => ?_, decodeEvent_of_short type_two⟩
  by_contra long
  rw [decodeEvent_of_move (not_lt.mp long) type_two] at h
  exact moveOutcome_ne_err _ _ _ _ _ h

/-- Only a type-2 buffer of 8 bytes or more decodes to an event (R182). -/
theorem move_of_decodeEvent_ok {buf : Bytes} {ev : Event} (h : decodeEvent buf = .result (.ok ev)) :
    8 ≤ buf.length ∧ sbits buf 0 4 = 2#4 := by
  have nonempty : buf ≠ [] := by rintro rfl; cases h
  have type_two : sbits buf 0 4 = 2#4 := by
    by_contra other
    cases (decodeEvent_of_other_type nonempty other).symm.trans h
  refine ⟨?_, type_two⟩
  by_contra short
  cases (decodeEvent_of_short type_two (not_le.mp short)).symm.trans h

/-- Every face has a code, so the six face codes are all there are (R181). -/
theorem faceOfCode_code (f : Face) : (f.code.setWidth 4).toNat ≤ 5 ∧ faceOfCode (f.code.setWidth 4) = some f := by
  cases f <;> decide

/-- Settles O26: another discriminant decides alone; under discriminant 2 the length does. Buffers that agree on the
first 63 bits have one type, and for type 2 they agree on all that a move record's decoding reads. -/
theorem discriminantThenLength : Obligations.DiscriminantThenLength := by
  refine ⟨fun buf nonempty => ⟨decodeEvent_of_other_type nonempty, fun type_two =>
    ⟨by omega, decodeEvent_invalidLength_iff type_two⟩⟩, fun b b' length_b length_b' agree => ?_⟩
  have type_eq : sbits b 0 4 = sbits b' 0 4 := sbits_congr fun k _ _ => agree k (by omega)
  by_cases type_b : sbits b 0 4 = 2#4
  · exact (reservedBitsNeverMatter b b' length_b length_b' type_b (fun k _ => agree k (by omega))
      fun k _ => agree k).1
  · have nonempty : b ≠ [] := List.ne_nil_of_length_pos (by omega)
    have nonempty' : b' ≠ [] := List.ne_nil_of_length_pos (by omega)
    rw [decodeEvent_of_other_type nonempty type_b, decodeEvent_of_other_type nonempty' (type_eq ▸ type_b)]

/-- Settles O27: an event comes from a move record only, whose outcome is made of the four fields and nothing else. -/
theorem moveFieldsExtracted : Obligations.MoveFieldsExtracted := by
  refine ⟨⟨rfl, rfl, rfl, rfl, rfl, rfl, fun f => ⟨f.code.setWidth 4, faceOfCode_code f⟩⟩, fun buf ev decoded => ?_, ?_⟩
  · obtain ⟨length_ge, type_two⟩ := move_of_decodeEvent_ok decoded
    rw [decodeEvent_of_move length_ge type_two] at decoded
    exact fields_of_moveOutcome_ok decoded
  · intro b b' length_b length_b' type_b type_b' serial_eq face_eq prime_eq elapsed_eq
    rw [decodeEvent_of_move length_b type_b, decodeEvent_of_move length_b' type_b', serial_eq, face_eq, prime_eq,
      elapsed_eq]

end Sys2Proof
end

