-- ==== Sys2Proof/Proofs/Invariant.lean ====
section
/-! PROOFS. The invariant of the machine holds at reset, each operation on the state keeps it, and so does every step
(10_state.md R23 to R34, 42_decrypt_transform.md R166, 44_decode_transform.md R214). -/
namespace Sys2Proof.Machine

/-- The codes a fault is written as are 1 to 6 (R26). -/
theorem FaultCode.code_bounds (c : FaultCode) : 1 ≤ c.code.toNat ∧ c.code.toNat ≤ 6 := by
  cases c <;> decide

theorem FaultCode.code_ne_zero (c : FaultCode) : c.code ≠ 0#4 := by
  cases c <;> decide

/-- A record with no working buffer under it is run as `DECODE` (log 6). -/
theorem State.owner_of_idle {s : State} (h : s.work = none) : s.owner = .decode := by rw [State.owner, h]

/-- With no working buffer a word is delivered as the response of `DECODE`. -/
theorem State.delivered_of_idle {s : State} (h : s.work = none) (w : BitVec 32) :
    s.delivered w = s.respond (.result w) := by
  rw [State.delivered, if_pos (State.owner_of_idle h), State.respond]

/-! ### The operations on the state -/

theorem State.Inv.respond {s : State} (h : s.Inv) (r : Response) : (s.respond r).Inv :=
  { h with idle := rfl }

theorem State.Inv.setInbox {s : State} (h : s.Inv) (rest : List HostInput) : State.Inv { s with inbox := rest } :=
  { h with }

theorem State.Inv.raiseFault {s : State} (h : s.Inv) (c : FaultCode) : (s.raiseFault c).Inv :=
  { h with
    code := c.code_bounds.2
    idle := rfl
    count := fun none_pending => absurd none_pending c.code_ne_zero }

theorem State.Inv.resetBlock {s : State} (h : s.Inv) : s.resetBlock.Inv :=
  { key := rfl, iv := rfl, code := by simp, bound17 := h.bound17, idle := rfl, taken := by simp, count := fun _ => rfl }

theorem State.Inv.bindSession {s : State} (h : s.Inv) (K V : Block) : (s.bindSession K V).Inv :=
  { h with key := rfl, iv := rfl }

theorem State.Inv.endSession {s : State} (h : s.Inv) : s.endSession.Inv :=
  { h with key := rfl, iv := rfl }

theorem State.Inv.pull {s : State} (h : s.Inv) : s.pull.2.Inv := by
  rw [State.pull_snd]
  exact { h with }

/-- An item taken and lost by a fault is the one item the invariant lets be undelivered (R214). -/
theorem State.Inv.loseItem {s : State} (h : s.Inv) (live : s.Live) (c : FaultCode) :
    (s.countTaken.raiseFault c).Inv :=
  { h with
    code := c.code_bounds.2
    idle := rfl
    taken := by simp [h.count live]
    count := fun none_pending => absurd none_pending c.code_ne_zero }

/-- An item taken and delivered is counted on both sides (R166). -/
theorem State.Inv.deliverItem {s : State} (h : s.Inv) (live : s.Live) : s.countTaken.countItem.Inv :=
  { h with
    taken := by simp [h.count live]
    count := fun _ => by simp [h.count live] }

/-! ### Instructions and steps -/

/-- Whatever an instruction does, the invariant is kept. -/
theorem State.Inv.execCase {i : Instr} {s t : State} (h : s.Inv) (run : ExecCase i s t) : t.Inv := by
  have pull_live (live : s.Live) : s.pull.2.Live := (State.pull_fault s).trans live
  cases run with
  | faulted _ _ => exact h.respond _
  | status _ => exact h.respond _
  | raise c _ _ => exact h.raiseFault c
  | bind _ _ K V _ _ _ => exact (h.bindSession K V).respond _
  | release _ _ => exact h.endSession.respond _
  | decrypt _ _ _ _ _ => exact h.respond _
  | decode _ _ _ _ => exact h.respond _
  | record w _ _ =>
    rw [State.delivered_of_idle h.idle]
    exact h.respond _
  | notReady _ _ _ => exact h.pull.respond _
  | exhausted _ _ _ => exact h.pull.respond _
  | lost c _ live _ _ => exact h.pull.loseItem (pull_live live) c
  | item r _ live _ _ => exact (h.pull.deliverItem (pull_live live)).respond r

/-- Settles O57: at reset nothing is bound, pending or counted, and a finite length bound is 17 and a slack more. -/
theorem resetMeetsInv : Obligations.ResetMeetsInv where
  key := rfl
  iv := rfl
  code := by decide
  bound17 m finite := by
    obtain ⟨slack, _, rfl⟩ := Option.map_eq_some_iff.mp finite
    omega
  idle := rfl
  taken := ⟨le_rfl, Nat.zero_le _⟩
  count _ := rfl

/-- Settles O58, by the cases of a step: it waits, resets the block, rejects a command, or runs an instruction; a
working buffer, which the other cases begin with, the invariant excludes. -/
theorem stepKeepsInv : Obligations.StepKeepsInv := by
  intro s t h taken_step
  cases step_cases taken_step with
  | idle _ _ => exact h
  | reset rest _ _ => exact (h.setInbox rest).resetBlock
  | command _ _ rest _ _ _ _ _ run => exact (h.setInbox rest).execCase run
  | badCommand _ _ rest _ _ _ => exact (h.setInbox rest).raiseFault _
  | badCommandFaulted _ _ rest _ _ _ => exact { h.setInbox rest with }
  | record w _ _ busy _ _ => exact absurd (h.idle.symm.trans busy) (by simp)
  | shortRecord w busy _ => exact absurd (h.idle.symm.trans busy) (by simp)
  | shortRecordFaulted w busy _ => exact absurd (h.idle.symm.trans busy) (by simp)

end Sys2Proof.Machine
end

