-- ==== Sys2Proof/Proofs/Coding.lean ====
section
/-! PROOFS. The two encodings: what the decoder of commands accepts, operation by operation, and that decoding and
encoding undo each other (30_encoding.md R70 to R76). -/
namespace Sys2Proof

/-! ### Command bytes -/

theorem cmdByte_op : ∀ op low : BitVec 4, (cmdByte op low).extractLsb' 4 4 = op := by decide

theorem cmdByte_low : ∀ op low : BitVec 4, (cmdByte op low).extractLsb' 0 4 = low := by decide

/-- A command byte is its operation and its low nibble (R70). -/
theorem cmdByte_of_nibbles : ∀ cmd : Byte, cmdByte (cmd.extractLsb' 4 4) (cmd.extractLsb' 0 4) = cmd := by decide

/-- A low nibble with its reserved bits 0 is the value of `FAM` for the family it selects (R72). -/
theorem familyBit_familyOfBit : ∀ low : BitVec 4, low.extractLsb' 1 3 = 0#3 →
    familyBit (familyOfBit (low.getLsbD 0)) = low := by decide

theorem low_eq_zero : ∀ low : BitVec 4, low.extractLsb' 1 3 = 0#3 → low.getLsbD 0 = false → low = 0#4 := by decide

/-! ### The checks of the decoder -/

theorem decodeLowZero_ok {low : BitVec 4} {r : Except DecodeError Instr} {i : Instr}
    (h : decodeLowZero low r = .ok i) : low = 0#4 ∧ r = .ok i := by
  unfold decodeLowZero at h
  split at h
  · cases h
  · split at h
    · cases h
    · exact ⟨low_eq_zero low (not_not.mp ‹_›) (Bool.eq_false_of_not_eq_true ‹_›), h⟩

theorem decodeNoPayload_ok {payload : Bytes} {i j : Instr} (h : decodeNoPayload payload i = .ok j) :
    payload = [] ∧ j = i := by
  cases payload with
  | nil => cases h; exact ⟨rfl, rfl⟩
  | cons _ _ => cases h

/-- A command with a zero low nibble and no payload, where both checks passed. -/
theorem decodeLowZero_noPayload_ok {low : BitVec 4} {payload : Bytes} {i j : Instr}
    (h : decodeLowZero low (decodeNoPayload payload i) = .ok j) : low = 0#4 ∧ payload = [] ∧ j = i :=
  have ⟨low_zero, h⟩ := decodeLowZero_ok h
  ⟨low_zero, decodeNoPayload_ok h⟩

/-- A command byte, given by its two nibbles, that decodes to an instruction is the first byte of its encoding. -/
theorem encode_of_decodeCommand_cmdByte {op low : BitVec 4} {payload : Bytes} {i : Instr}
    (h : decodeCommand (cmdByte op low) payload = .ok i) :
    encode i = cmdByte op low :: payload ∧ i.wf = true ∧ i.space = .command := by
  simp only [decodeCommand, cmdByte_op, cmdByte_low] at h
  have op_eq : op = BitVec.ofNat 4 op.toNat := by simp
  split at h
  case h_1 code | h_10 code | h_11 code | h_12 code | h_13 code | h_14 code | h_15 code =>
    cases h
    rw [code] at op_eq
    exact ⟨by rw [op_eq]; rfl, rfl, rfl⟩
  case h_16 =>
    cases h
    have code : op.toNat = 15 := by
      have := op.isLt
      simp only [imp_false] at *
      omega
    rw [code] at op_eq
    exact ⟨by rw [op_eq]; rfl, rfl, rfl⟩
  case h_2 code =>
    rw [code] at op_eq
    split at h
    · cases h
    · split at h
      · cases h
        have low_eq := familyBit_familyOfBit low (not_not.mp ‹_›)
        exact ⟨by rw [op_eq, encode, low_eq], ‹_›, rfl⟩
      · cases h
  case h_3 code | h_6 code | h_7 code | h_8 code | h_9 code =>
    obtain ⟨rfl, rfl, rfl⟩ := decodeLowZero_noPayload_ok h
    rw [code] at op_eq
    exact ⟨by rw [op_eq]; rfl, rfl, rfl⟩
  case h_4 code | h_5 code =>
    obtain ⟨rfl, accepted⟩ := decodeLowZero_ok h
    cases accepted
    rw [code] at op_eq
    exact ⟨by rw [op_eq]; rfl, rfl, rfl⟩

/-- Settles O2: every command byte is made of its two nibbles. -/
theorem commandBytesDetermined : Obligations.CommandBytesDetermined := by
  intro cmd payload i h
  rw [← cmdByte_of_nibbles cmd] at h ⊢
  exact encode_of_decodeCommand_cmdByte h

/-! ### Encoded instructions -/

/-- A family's bit is a low nibble with reserved bits 0 that selects the family (R72). -/
theorem familyOfBit_familyBit (f : Family) :
    (familyBit f).extractLsb' 1 3 = 0#3 ∧ familyOfBit ((familyBit f).getLsbD 0) = f := by
  cases f <;> decide

theorem decodeCommand_bind (f : Family) {addr : Bytes} (six : addrOk addr = true) :
    decodeCommand (cmdByte 0x1#4 (familyBit f)) addr = .ok (.bind f addr) := by
  obtain ⟨reserved, family⟩ := familyOfBit_familyBit f
  simp only [decodeCommand, cmdByte_op, cmdByte_low, BitVec.reduceToNat, reserved, family, six, if_true, ne_eq,
    not_true, if_false]

section
variable (serial : Byte) (face : BitVec 4) (prime : Bool) (elapsed : BitVec 16)

/-- A range of stream bits of an encoded move record is a field when it agrees with it bit by bit. -/
theorem sbits_moveRecord_eq {lo w : Nat} {field : BitVec w}
    (bits : ∀ i, i < w → sbit (beBytes (moveWord serial face prime elapsed)) (lo + (w - 1 - i)) = field.getLsbD i) :
    sbits (beBytes (moveWord serial face prime elapsed)) lo w = field := by
  apply BitVec.eq_of_getLsbD_eq
  intro i hi
  rw [sbits_getLsbD, decide_eq_true hi, Bool.true_and, bits i hi]

/-- The type and the four fields read back from an encoded move record (R75). -/
theorem fields_moveRecord :
    sbits (beBytes (moveWord serial face prime elapsed)) 0 4 = 2#4 ∧
    sbits (beBytes (moveWord serial face prime elapsed)) 4 8 = serial ∧
    sbits (beBytes (moveWord serial face prime elapsed)) 12 4 = face ∧
    sbit (beBytes (moveWord serial face prime elapsed)) 16 = prime ∧
    sbits (beBytes (moveWord serial face prime elapsed)) 47 16 = elapsed := by
  refine ⟨?_, ?_, ?_, ?_, ?_⟩
  · refine sbits_moveRecord_eq _ _ _ _ fun i hi => ?_
    rw [sbit_moveRecord _ _ _ _ (by omega), if_pos (by omega)]
    congr 1; omega
  · refine sbits_moveRecord_eq _ _ _ _ fun i hi => ?_
    rw [sbit_moveRecord _ _ _ _ (by omega), if_neg (by omega), if_pos (by omega)]
    congr 1; omega
  · refine sbits_moveRecord_eq _ _ _ _ fun i hi => ?_
    rw [sbit_moveRecord _ _ _ _ (by omega), if_neg (by omega), if_neg (by omega), if_pos (by omega)]
    congr 1; omega
  · rw [sbit_moveRecord _ _ _ _ (by omega)]
    rfl
  · refine sbits_moveRecord_eq _ _ _ _ fun i hi => ?_
    rw [sbit_moveRecord _ _ _ _ (by omega), if_neg (by omega), if_neg (by omega), if_neg (by omega),
      if_neg (by omega), if_neg (by omega), if_pos (by omega)]
    congr 1; omega

theorem decodeRecord_moveRecord :
    decodeRecord (beBytes (moveWord serial face prime elapsed)) = .ok (.move serial face prime elapsed) := by
  obtain ⟨type_two, serial_eq, face_eq, prime_eq, elapsed_eq⟩ := fields_moveRecord serial face prime elapsed
  rw [decodeRecord_of_move (by simp [beBytes]) type_two, serial_eq, face_eq, prime_eq, elapsed_eq]

end

/-- Settles O1, by the constructors: `BIND` and the reserved operations are decoded from their two nibbles, the move
record from its stream bits, and every other instruction has a fixed first byte that decoding computes. -/
theorem decodeInvertsEncode : Obligations.DecodeInvertsEncode := by
  intro i wf
  cases i with
  | bind f addr => exact decodeCommand_bind f wf
  | reservedOp0 low _ | reservedOp9 low _ | reservedOpA low _ | reservedOpB low _ | reservedOpC low _
  | reservedOpD low _ | reservedOpE low _ | reservedOpF low _ =>
    simp [Instr.space, encode, decode, decodeCommand, cmdByte_op, cmdByte_low]
  | move serial face prime elapsed => exact decodeRecord_moveRecord serial face prime elapsed
  | release | decrypt _ | decode _ | pollDec | pollEvt | poll | status | evtUnknown0 | evtUnknown1 | evtUnknown3
  | evtUnknown4 | evtUnknown5 | evtUnknown6 | evtUnknown7 | evtUnknown8 | evtUnknown9 | evtUnknown10 | evtUnknown11
  | evtUnknown12 | evtUnknown13 | evtUnknown14 | evtUnknown15 => rfl

/-- Settles O6: the seven words decode by computation. -/
theorem sampleWordsDecode : Obligations.SampleWordsDecode := ⟨rfl, rfl, rfl, rfl, rfl, rfl, rfl⟩

end Sys2Proof
end

