-- ==== Sys2Proof/Proofs/FieldArithmetic.lean ====
section
/-! PROOFS. The fields of a record as byte arithmetic: a range of stream bits splits, and a range within one byte is a
slice of the byte's number (30_encoding.md section 3). -/
namespace Sys2Proof

/-- A range of stream bits, split in two: the first part stands above the second (R7). -/
theorem toNat_sbits_add (buf : Bytes) (lo w v : Nat) :
    (sbits buf lo (w + v)).toNat = (sbits buf lo w).toNat * 2 ^ v + (sbits buf (lo + w) v).toNat := by
  induction v with
  | zero => simp [sbits]
  | succ v ih =>
    rw [← Nat.add_assoc, toNat_sbits_succ, toNat_sbits_succ, ih, Nat.add_assoc lo w v]
    ring

/-- A range of stream bits within one byte is a slice of that byte's number (R7). -/
theorem toNat_sbits_within (buf : Bytes) {q r w : Nat} (within : r + w ≤ 8) :
    (sbits buf (8 * q + r) w).toNat = (buf.getD q 0#8).toNat / 2 ^ (8 - r - w) % 2 ^ w := by
  have slice : sbits buf (8 * q + r) w = (buf.getD q 0#8).extractLsb' (8 - r - w) w := by
    apply BitVec.eq_of_getLsbD_eq
    intro i hi
    have byte : (8 * q + r + (w - 1 - i)) / 8 = q := by omega
    have bit : 7 - (8 * q + r + (w - 1 - i)) % 8 = 8 - r - w + i := by omega
    rw [sbits_getLsbD, BitVec.getLsbD_extractLsb', sbit, byte, bit]
  rw [slice, BitVec.extractLsb'_toNat, Nat.shiftRight_eq_div_pow]

/-- Settles O4: the serial is four bits of byte 0 and four of byte 1; the elapsed field is the last bit of byte 5, byte
6, and the first seven bits of byte 7; each other field lies in one byte. -/
theorem fieldsAsByteArithmetic : Obligations.FieldsAsByteArithmetic := by
  intro b0 b1 b2 b3 b4 b5 b6 b7 rest b
  have type : (sbits b 0 4).toNat = b0.toNat / 16 % 16 := toNat_sbits_within b (q := 0) (r := 0) (by decide)
  have serial_high : (sbits b 4 4).toNat = b0.toNat / 1 % 16 := toNat_sbits_within b (q := 0) (r := 4) (by decide)
  have serial_low : (sbits b 8 4).toNat = b1.toNat / 16 % 16 := toNat_sbits_within b (q := 1) (r := 0) (by decide)
  have face : (sbits b 12 4).toNat = b1.toNat / 1 % 16 := toNat_sbits_within b (q := 1) (r := 4) (by decide)
  have prime : (sbits b 16 1).toNat = b2.toNat / 128 % 2 := toNat_sbits_within b (q := 2) (r := 0) (by decide)
  have elapsed_high : (sbits b 47 1).toNat = b5.toNat / 1 % 2 := toNat_sbits_within b (q := 5) (r := 7) (by decide)
  have elapsed_mid : (sbits b 48 8).toNat = b6.toNat / 1 % 256 := toNat_sbits_within b (q := 6) (r := 0) (by decide)
  have elapsed_low : (sbits b 56 7).toNat = b7.toNat / 2 % 128 := toNat_sbits_within b (q := 7) (r := 0) (by decide)
  have serial : (sbits b 4 8).toNat = (sbits b 4 4).toNat * 16 + (sbits b 8 4).toNat := toNat_sbits_add b 4 4 4
  have elapsed_top : (sbits b 47 9).toNat = (sbits b 47 1).toNat * 256 + (sbits b 48 8).toNat :=
    toNat_sbits_add b 47 1 8
  have elapsed : (sbits b 47 16).toNat = (sbits b 47 9).toNat * 128 + (sbits b 56 7).toNat :=
    toNat_sbits_add b 47 9 7
  have prime_bit : (sbits b 16 1).toNat = 0 * 2 + (sbit b 16).toNat := toNat_sbits_succ b 16 0
  have := b0.isLt
  have := b2.isLt
  refine ⟨?_, ?_, ?_, ?_, ?_⟩ <;> omega

end Sys2Proof
end

