-- ==== Sys2Proof/Proofs/Stepping.lean ====
section
/-! PROOFS. The step, one equation for each thing `fetch` finds, and the dispatch of every command byte (30_encoding.md
R70 to R74; 43_decode.md R184, R187; 70_reset_and_hazards.md R260). -/
namespace Sys2Proof.Machine

/-! ### The step by what it finds -/

section
variable {s : State}

theorem step_of_nothing_pending (idle : s.work = none) (no_input : s.inbox = []) : step s = .next s := by
  simp only [step, fetch, idle, no_input]

theorem step_of_reset {rest : List HostInput} (idle : s.work = none) (input : s.inbox = .reset :: rest) :
    step s = .next (State.resetBlock { s with inbox := rest }) := by
  simp only [step, fetch, idle, input]

section
variable {cmd : Byte} {payload : Bytes} {rest : List HostInput} (idle : s.work = none)
  (input : s.inbox = .command cmd payload :: rest)
include idle input

/-- A command that decodes runs its instruction at the state with the input taken. -/
theorem step_of_accepted {i : Instr} (accepted : decodeCommand cmd payload = .ok i) :
    step s = exec i { s with inbox := rest } := by
  simp only [step, fetch, idle, input, Sys2Proof.decode, accepted, Fetched.ofDecoded]

/-- A command that does not decode is `BAD_COMMAND` (R74). -/
theorem step_of_refused {e : DecodeError} (refused : decodeCommand cmd payload = .error e) :
    step s = State.badCommand { s with inbox := rest } := by
  obtain ⟨not_empty, not_short⟩ := decodeCommand_error refused
  simp only [step, fetch, idle, input, Sys2Proof.decode, refused, Fetched.ofDecoded]
  cases e with
  | emptyRecord => exact absurd rfl not_empty
  | shortMove => exact absurd rfl not_short
  | noCommandByte | reservedBits | famBit | bindLength | payloadNotEmpty => rfl

end

section
variable {w : WorkBuf} (busy : s.work = some w)
include busy

/-- A record at the decoder is run at the state that holds it (log 6). -/
theorem step_of_record {i : Instr} (accepted : decodeRecord w.bytes = .ok i) : step s = exec i s := by
  simp only [step, fetch, busy, Sys2Proof.decode, accepted, Fetched.ofDecoded]

/-- A buffer too short for a record is `InvalidLength` (R184, R187). -/
theorem step_of_short_record {e : DecodeError} (refused : decodeRecord w.bytes = .error e) :
    step s = s.invalidLength := by
  simp only [step, fetch, busy, Sys2Proof.decode, refused, Fetched.ofDecoded]
  rcases decodeRecord_error refused with ⟨rfl, _⟩ | ⟨rfl, _⟩ <;> rfl

end

end

/-! ### What is decoded -/

/-- A record that decodes is well formed: only `BIND` could fail to be. -/
theorem wf_of_decodeRecord {buf : Bytes} {i : Instr} (h : decodeRecord buf = .ok i) : i.wf = true := by
  unfold decodeRecord at h
  split at h
  · cases h
  · split at h
    case h_3 =>
      split at h
      · cases h
      · cases h
        rfl
    all_goals
      cases h
      rfl

/-- A buffer of no bytes, or of type 2 with fewer than 8, is no record (R184, R187). -/
theorem decodeRecord_of_short {buf : Bytes} (short : buf = [] ∨ (sbits buf 0 4 = 2#4 ∧ buf.length < 8)) :
    ∃ e, decodeRecord buf = .error e := by
  rcases short with rfl | ⟨type_two, short⟩
  · exact ⟨_, rfl⟩
  · have below63 : 8 * buf.length < 63 := by omega
    by_cases empty : buf.length = 0
    · exact ⟨.emptyRecord, by rw [decodeRecord, if_pos empty]⟩
    · exact ⟨.shortMove, by simp [decodeRecord, empty, type_two, below63]⟩

/-- Settles O7: a command's instruction is well formed because it is its encoding, a record's because no record can
fail to be. -/
theorem stepRunsDecodedInstruction : Obligations.StepRunsDecodedInstruction :=
  ⟨fun _ cmd payload _ i idle input accepted =>
    ⟨(commandBytesDetermined cmd payload i accepted).2.1, step_of_accepted idle input accepted⟩,
   fun _ _ _ busy accepted => ⟨wf_of_decodeRecord accepted, step_of_record busy accepted⟩⟩

/-- Settles O8: with nothing pending `fetch` finds nothing; a short buffer is rejected, and a live block delivers the
word of `InvalidLength`. -/
theorem stepWaitsAndRejects : Obligations.StepWaitsAndRejects := by
  refine ⟨fun s idle no_input => step_of_nothing_pending idle no_input, fun s w live busy short => ?_⟩
  obtain ⟨e, refused⟩ := decodeRecord_of_short short
  rw [step_of_short_record busy refused, State.invalidLength, State.runRecord, State.whenLive_of_live live,
    ← State.deliver_eq_delivered]
  rfl

/-- Settles O10: the step takes the event and resets the block, which has no working buffer to lose. -/
theorem resetEventRestores : Obligations.ResetEventRestores := by
  intro s rest idle input
  rw [step_of_reset idle input, State.resetBlock, ← idle]

/-- Settles O11: these are the values the reset state is defined with. -/
theorem resetStateValues : Obligations.ResetStateValues := ⟨rfl, rfl, rfl, rfl, rfl, rfl, rfl, rfl, rfl⟩

/-! ### The dispatch -/

/-- A live block answers a bad command with fault 5 (R74). -/
theorem State.badCommand_of_live {s : State} (live : s.Live) :
    s.badCommand = .next { s with fault := 5#4, work := none, out := .faulted 5#4 :: s.out } :=
  State.whenLive_of_live live _

/-- The check of the low nibble refuses a reserved bit or the family bit (R74). -/
theorem decodeLowZero_refuses {cmd : Byte} (bits : cmd.toNat / 2 % 8 ≠ 0 ∨ cmd.toNat % 2 ≠ 0)
    (r : Except DecodeError Instr) : ∃ e, decodeLowZero (cmd.extractLsb' 0 4) r = .error e := by
  by_cases reserved : cmd.toNat / 2 % 8 = 0
  · have fam : cmd.toNat % 2 = 1 := by omega
    exact ⟨.famBit, by simp only [decodeLowZero, ne_eq, cmd_reserved, cmd_fam, reserved, fam]; rfl⟩
  · exact ⟨.reservedBits, by simp only [decodeLowZero, ne_eq, cmd_reserved, reserved]; rfl⟩

/-- The check of the low nibble passes a zero nibble on (R74). -/
theorem decodeLowZero_passes {cmd : Byte} (reserved : cmd.toNat / 2 % 8 = 0) (fam : cmd.toNat % 2 = 0)
    (r : Except DecodeError Instr) : decodeLowZero (cmd.extractLsb' 0 4) r = r := by
  simp only [decodeLowZero, ne_eq, cmd_reserved, cmd_fam, reserved, fam]
  rfl

theorem decodeLowZero_noPayload_refuses {cmd : Byte} {payload : Bytes}
    (bad : cmd.toNat / 2 % 8 ≠ 0 ∨ cmd.toNat % 2 ≠ 0 ∨ payload.length ≠ 0) (i : Instr) :
    ∃ e, decodeLowZero (cmd.extractLsb' 0 4) (decodeNoPayload payload i) = .error e := by
  by_cases bits : cmd.toNat / 2 % 8 ≠ 0 ∨ cmd.toNat % 2 ≠ 0
  · exact decodeLowZero_refuses bits _
  · cases payload with
    | nil => exact absurd bad (by simpa using bits)
    | cons _ _ => exact ⟨_, decodeLowZero_passes (by omega) (by omega) _⟩

/-- A bad command decodes to no instruction, or to a reserved operation, which answers as one (R74). -/
theorem decodeCommand_of_bad {cmd : Byte} {payload : Bytes} (bad : BadCommand cmd payload) :
    (∃ e, decodeCommand cmd payload = .error e) ∨
      ∃ i, decodeCommand cmd payload = .ok i ∧ ∀ s, exec i s = s.badCommand := by
  simp only [BadCommand, List.mem_cons, List.not_mem_nil, or_false] at bad
  simp only [decodeCommand, cmd_op]
  split
  case h_1 | h_10 | h_11 | h_12 | h_13 | h_14 | h_15 | h_16 => exact .inr ⟨_, rfl, fun _ => rfl⟩
  case h_2 op =>
    left
    by_cases reserved : cmd.toNat / 2 % 8 = 0
    · have length : ¬ addrOk payload = true := by simp only [addrOk, beq_iff_eq]; omega
      exact ⟨.bindLength, by simp only [ne_eq, cmd_reserved, reserved, length]; rfl⟩
    · exact ⟨.reservedBits, by simp only [ne_eq, cmd_reserved, reserved]; rfl⟩
  case h_3 | h_6 | h_7 | h_8 | h_9 => exact .inl (decodeLowZero_noPayload_refuses (by omega) _)
  case h_4 | h_5 => exact .inl (decodeLowZero_refuses (by omega) _)

/-- What is true of a command that is not bad, by the numbers of its bits (R70, R74). -/
theorem good_of_not_badCommand {cmd : Byte} {payload : Bytes} (good : ¬ BadCommand cmd payload) :
    cmd.toNat / 2 % 8 = 0 ∧ (cmd.toNat / 16 ≠ 1 → cmd.toNat % 2 = 0) ∧
      (cmd.toNat / 16 = 1 → payload.length = 6) ∧ (cmd.toNat / 16 ∈ [2, 5, 6, 7, 8] → payload = []) := by
  simp only [BadCommand, not_or, not_and, not_not] at good
  obtain ⟨_, _, reserved, fam, six, empty⟩ := good
  exact ⟨reserved, fam, six, fun op => List.length_eq_zero_iff.mp (empty op)⟩

/-- Settles O9: a bad command is rejected or is a reserved operation, and both are `BAD_COMMAND`; any other passes the
checks of its operation. -/
theorem dispatchIsTotal : Obligations.DispatchIsTotal := by
  intro s cmd payload rest live idle input
  refine ⟨fun bad => ?_, fun good => ?_⟩
  · have answer : step s = State.badCommand { s with inbox := rest } := by
      rcases decodeCommand_of_bad bad with ⟨e, refused⟩ | ⟨i, accepted, reserved⟩
      · exact step_of_refused idle input refused
      · exact (step_of_accepted idle input accepted).trans (reserved _)
    have live' : State.Live { s with inbox := rest } := live
    rw [answer, State.badCommand_of_live live', idle]
  · obtain ⟨reserved, fam, six, empty⟩ := good_of_not_badCommand good
    have runs {i : Instr} (accepted : decodeCommand cmd payload = .ok i) : step s = exec i { s with inbox := rest } :=
      step_of_accepted idle input accepted
    have passes (op : cmd.toNat / 16 ≠ 1) (r : Except DecodeError Instr) :
        decodeLowZero (cmd.extractLsb' 0 4) r = r := decodeLowZero_passes reserved (fam op) r
    refine ⟨fun op => runs ?_, fun op => runs ?_, fun op => runs ?_, fun op => runs ?_, fun op => runs ?_,
      fun op => runs ?_, fun op => runs ?_, fun op => runs ?_⟩ <;>
      simp only [decodeCommand, cmd_op, op]
    case refine_1 =>
      have family : familyOfBit (decide (cmd.toNat % 2 = 1)) = if cmd.toNat % 2 = 1 then .fam1 else .fam0 := by
        by_cases bit : cmd.toNat % 2 = 1 <;> simp [bit, familyOfBit]
      have length : addrOk payload = true := by simp only [addrOk, six op, beq_self_eq_true]
      simp only [ne_eq, cmd_reserved, cmd_fam, reserved, not_true, if_false, length, if_true, family]
    case refine_3 | refine_4 => exact passes (by omega) _
    all_goals
      rw [passes (by omega), empty (by simp [op])]
      rfl

end Sys2Proof.Machine
end

