-- ==== Sys2Proof/Proofs/Sessions.lean ====
section
/-! PROOFS. The salting of key and IV lane by lane, and the session and status commands of a live block
(40_key_derivation.md R101 to R106). -/
namespace Sys2Proof.Machine

/-! ### Salting -/

theorem saltOf_length (addr : Bytes) : (saltOf addr).length = addr.length := List.length_reverse

/-- Byte `i` of the salt of a six-byte address is byte `5 - i` of the address (R101). -/
theorem saltOf_getD {addr : Bytes} (six : addr.length = 6) {i : Nat} (hi : i < 6) (d : Byte) :
    (saltOf addr).getD i d = addr.getD (5 - i) d := by
  rw [saltOf, List.getD_eq_getElem?_getD, List.getElem?_reverse (by omega), six, ← List.getD_eq_getElem?_getD]

/-- A salted lane is the sum modulo 255: the remainder fits the byte (R102). -/
theorem saltByte_toNat (base salt : Byte) : (saltByte base salt).toNat = (base.toNat + salt.toNat) % 255 := by
  rw [saltByte, BitVec.toNat_ofNat]
  omega

theorem saltByte_ne_ones (base salt : Byte) : saltByte base salt ≠ 0xFF#8 := by
  intro h
  have sum : (saltByte base salt).toNat = 255 := congrArg BitVec.toNat h
  rw [saltByte_toNat] at sum
  omega

/-- A salt byte 0xFF is 255, so it acts as 0 (R102). -/
theorem saltByte_ones (base : Byte) : saltByte base 0xFF#8 = saltByte base 0x00#8 := by
  apply BitVec.eq_of_toNat_eq
  rw [saltByte_toNat, saltByte_toNat]
  exact Nat.add_mod_right _ _

theorem salt16_get_lane (base : Block) (salt : Bytes) {i : Nat} (hi : i < 6) :
    (salt16 base salt).get i = saltByte (base.get i) (salt.getD i 0#8) := by
  rw [salt16, Block.get_ofFn _ (by omega), if_pos hi]

theorem salt16_get_rest (base : Block) (salt : Bytes) {i : Nat} (low : 6 ≤ i) (high : i < 16) :
    (salt16 base salt).get i = base.get i := by
  rw [salt16, Block.get_ofFn _ high, if_neg (by omega)]

/-- Settles O12: each lane is its own salted byte, a sum modulo 255. -/
theorem saltLanesModulo255 : Obligations.SaltLanesModulo255 := by
  refine ⟨fun addr six => ⟨(saltOf_length addr).trans six, fun i hi => saltOf_getD six hi _⟩,
    fun base salt _ => ⟨fun i hi => ?_, fun i low high => salt16_get_rest base salt low high⟩,
    rfl, rfl, rfl, saltByte_ones, fun base base' salt salt' i hi base_eq salt_eq => ?_⟩
  · rw [salt16_get_lane base salt hi]
    exact ⟨saltByte_toNat _ _, saltByte_ne_ones _ _⟩
  · rw [salt16_get_lane base salt hi, salt16_get_lane base' salt' hi, base_eq, salt_eq]

/-- A lane of a block salted by a six-byte address (R101, R102). -/
theorem salt16_saltOf_lane (base : Block) {addr : Bytes} (six : addr.length = 6) {i : Nat} (hi : i < 6) :
    ((salt16 base (saltOf addr)).get i).toNat = ((base.get i).toNat + (addr.getD (5 - i) 0#8).toNat) % 255 := by
  rw [salt16_get_lane base _ hi, saltOf_getD six hi, saltByte_toNat]

/-! ### The commands -/

section
variable {s : State} (live : s.Live)
include live

theorem exec_bind_of_unbound (f : Family) {addr : Bytes} (six : addr.length = 6) (unbound : s.bound = false) :
    exec (.bind f addr) s =
      .next ((s.bindSession (effectiveKey s.keyTable f addr) (effectiveIv s.keyTable f addr)).respond .ack) := by
  have length : addrOk addr = true := by simp only [addrOk, six, beq_self_eq_true]
  simp [exec, execBind, State.whenLive_of_live live, length, unbound]

theorem exec_bind_of_bound (f : Family) {addr : Bytes} (six : addr.length = 6) (bound : s.bound = true) :
    exec (.bind f addr) s = .next (s.raiseFault .sessionActive) := by
  have length : addrOk addr = true := by simp only [addrOk, six, beq_self_eq_true]
  simp [exec, execBind, State.whenLive_of_live live, length, bound]

theorem exec_bind_of_wrong_length (f : Family) {addr : Bytes} (length : addr.length ≠ 6) :
    exec (.bind f addr) s = .next (s.raiseFault .badCommand) := by
  simp [exec, execBind, State.whenLive_of_live live, addrOk, length]

theorem exec_release_of_live : exec .release s = .next (s.endSession.respond .ack) :=
  State.whenLive_of_live live fun s => .next (s.endSession.respond .ack)

end

/-- Settles O13: key and IV are the base pair of the family, each salted by the reversed address. -/
theorem bindDerivesSession : Obligations.BindDerivesSession := by
  intro f addr s live unbound six base
  have pair : base = keyTableLookup s.keyTable f := by cases f <;> rfl
  refine ⟨effectiveKey s.keyTable f addr, effectiveIv s.keyTable f addr, exec_bind_of_unbound live f six unbound, ?_⟩
  rw [pair]
  exact ⟨fun i hi => ⟨salt16_saltOf_lane _ six hi, salt16_saltOf_lane _ six hi⟩,
    fun i low high => ⟨salt16_get_rest _ _ low high, salt16_get_rest _ _ low high⟩⟩

/-- Settles O14: the length of the address decides between the two faults, each of which only raises its code. -/
theorem bindRefusals : Obligations.BindRefusals := fun f _ _ live =>
  ⟨fun six bound => exec_bind_of_bound live f six bound, fun length => exec_bind_of_wrong_length live f length⟩

/-- With no session there is none to end: the three fields have these values already (R105). -/
theorem State.endSession_of_unbound {s : State} (unbound : s.bound = false) (no_key : s.effKey = none)
    (no_iv : s.effIv = none) : s.endSession = s := by
  cases s
  cases unbound
  cases no_key
  cases no_iv
  rfl

/-- Settles O15: ending the session writes the three fields, and changes none of them where no session is bound. -/
theorem releaseEndsSession : Obligations.ReleaseEndsSession := by
  refine fun s live => ⟨exec_release_of_live live, fun unbound no_key no_iv idle => ?_⟩
  rw [exec_release_of_live live, State.endSession_of_unbound unbound no_key no_iv, State.respond, idle]

/-- The three parts of the status view (R27). -/
theorem statusView_parts : ∀ (fault : BitVec 4) (bound : Bool),
    let view : Byte := (fault ++ 0#3 ++ BitVec.ofBool bound).setWidth 8
    view.getLsbD 0 = bound ∧ view.extractLsb' 1 3 = 0#3 ∧ view.extractLsb' 4 4 = fault := by decide

/-- Settles O16: the answer is the status view, made of these three parts. -/
theorem statusShowsBoundAndFault : Obligations.StatusShowsBoundAndFault := fun s =>
  ⟨s.statusView, rfl, statusView_parts s.fault s.bound⟩

end Sys2Proof.Machine
end

