-- ==== Sys2Proof/Proofs/Cipher.lean ====
section
/-! PROOFS. AES-128: the key schedule word by word, the S-box as an affine image of the field inverse, and the inverse
cipher round by round (41_block_decrypt.md R121 to R130, R137). -/
namespace Sys2Proof.Machine

/-! ### The key schedule -/

/-- Settles O22: word `i` is column `i mod 4` of its round key, and each column of the next round key is made of the
same column of the last and of the column before it. -/
theorem keyScheduleRecurrence : Obligations.KeyScheduleRecurrence := by
  intro k w
  have word0 (q : Nat) : w (4 * q) = (roundKey k q).c0 := by
    simp only [w, show 4 * q % 4 = 0 by omega, show 4 * q / 4 = q by omega]
  have word1 (q : Nat) : w (4 * q + 1) = (roundKey k q).c1 := by
    simp only [w, show (4 * q + 1) % 4 = 1 by omega, show (4 * q + 1) / 4 = q by omega]
  have word2 (q : Nat) : w (4 * q + 2) = (roundKey k q).c2 := by
    simp only [w, show (4 * q + 2) % 4 = 2 by omega, show (4 * q + 2) / 4 = q by omega]
  have word3 (q : Nat) : w (4 * q + 3) = (roundKey k q).c3 := by
    simp only [w, show (4 * q + 3) % 4 = 3 by omega, show (4 * q + 3) / 4 = q by omega]
  refine ⟨⟨rfl, rfl, rfl, rfl⟩, fun i low _ => ?_⟩
  obtain ⟨q, rfl | rfl | rfl | rfl⟩ : ∃ q, i = 4 * (q + 1) ∨ i = 4 * (q + 1) + 1 ∨ i = 4 * (q + 1) + 2 ∨
      i = 4 * (q + 1) + 3 := ⟨i / 4 - 1, by omega⟩
  · rw [word0, show 4 * (q + 1) - 4 = 4 * q by omega, show 4 * (q + 1) - 1 = 4 * q + 3 by omega, word0, word3,
      if_pos (by omega), show 4 * (q + 1) / 4 = q + 1 by omega]
    rfl
  · rw [word1, show 4 * (q + 1) + 1 - 4 = 4 * q + 1 by omega, show 4 * (q + 1) + 1 - 1 = 4 * (q + 1) by omega, word1,
      word0, if_neg (by omega)]
    rfl
  · rw [word2, show 4 * (q + 1) + 2 - 4 = 4 * q + 2 by omega, show 4 * (q + 1) + 2 - 1 = 4 * (q + 1) + 1 by omega,
      word2, word1, if_neg (by omega)]
    rfl
  · rw [word3, show 4 * (q + 1) + 3 - 4 = 4 * q + 3 by omega, show 4 * (q + 1) + 3 - 1 = 4 * (q + 1) + 2 by omega,
      word3, word2, if_neg (by omega)]
    rfl

/-! ### The S-box -/

theorem invSbox_sbox : ∀ x : Byte, invSbox (sbox x) = x := by decide +kernel

theorem sbox_invSbox : ∀ x : Byte, sbox (invSbox x) = x := by decide +kernel

/-- The affine map of the S-box undone. On the entry of `x` it gives the field inverse of `x`, as
`gmul_fieldInverse_gmul` says. -/
def fieldInverse (x : Byte) : Byte :=
  (sbox x).rotateLeft 1 ^^^ (sbox x).rotateLeft 3 ^^^ (sbox x).rotateLeft 6 ^^^ 0x05#8

/-- The affine map does give the S-box back, bit by bit. -/
theorem sbox_getLsbD : ∀ (x : Byte) (i : Nat), i < 8 →
    (sbox x).getLsbD i = ((fieldInverse x).getLsbD i ^^ (fieldInverse x).getLsbD ((i + 4) % 8) ^^
      (fieldInverse x).getLsbD ((i + 5) % 8) ^^ (fieldInverse x).getLsbD ((i + 6) % 8) ^^
      (fieldInverse x).getLsbD ((i + 7) % 8) ^^ (0x63#8).getLsbD i) := by decide +kernel

/-- Bit `i` of a byte, in its place. -/
def bitOf (z : Byte) (i : Fin 8) : Byte := if z.getLsbD i then 1#8 <<< i.val else 0#8

/-- The bits of a byte, added up. -/
def sumOfBits (z : Byte) : Byte :=
  bitOf z 0 ^^^ bitOf z 1 ^^^ bitOf z 2 ^^^ bitOf z 3 ^^^ bitOf z 4 ^^^ bitOf z 5 ^^^ bitOf z 6 ^^^ bitOf z 7

theorem sumOfBits_eq : ∀ z : Byte, sumOfBits z = z := by decide +kernel

/-- A linear map of bytes that fixes the eight bits is the identity. -/
theorem eq_of_linear_of_bits {f : Byte → Byte} (linear : ∀ a b, f (a ^^^ b) = f a ^^^ f b)
    (bits : ∀ i : Fin 8, f (1#8 <<< i.val) = 1#8 <<< i.val) (z : Byte) : f z = z := by
  have zero : f 0#8 = 0#8 := by simpa using linear 0#8 0#8
  have fixed (i : Fin 8) : f (bitOf z i) = bitOf z i := by
    unfold bitOf
    split
    · exact bits i
    · exact zero
  calc f z = f (sumOfBits z) := by rw [sumOfBits_eq]
    _ = sumOfBits z := by simp only [sumOfBits, linear, fixed]
    _ = z := sumOfBits_eq z

/-- Multiplying by `x` and by its field inverse gives each bit back. -/
theorem gmul_fieldInverse_bits : ∀ x : Byte, x ≠ 0#8 → ∀ i : Fin 8,
    gmul (fieldInverse x) (gmul x (1#8 <<< i.val)) = 1#8 <<< i.val := by decide +kernel

theorem gmul_fieldInverse_gmul {x : Byte} (nonzero : x ≠ 0#8) (z : Byte) : gmul (fieldInverse x) (gmul x z) = z :=
  eq_of_linear_of_bits (f := fun z => gmul (fieldInverse x) (gmul x z)) (fun a b => by rw [gmul_xor, gmul_xor])
    (gmul_fieldInverse_bits x nonzero) z

theorem gmul_one_right : ∀ x : Byte, gmul x 1#8 = x := by decide +kernel

theorem gmul_zero_left : ∀ x : Byte, gmul 0#8 x = 0#8 := by decide +kernel

/-- The field inverse is the only one: what `x` times `y` equal 1 says of `y` (R121). -/
theorem eq_fieldInverse_of_gmul_eq_one {x y : Byte} (h : gmul x y = 1#8) : y = fieldInverse x := by
  have nonzero : x ≠ 0#8 := by
    rintro rfl
    rw [gmul_zero_left] at h
    cases h
  rw [← gmul_fieldInverse_gmul nonzero y, h, gmul_one_right]

/-- Settles O23: such a `y` can only be the field inverse of `x`, of which the S-box is the affine image. -/
theorem sboxTablesAlgebraic : Obligations.SboxTablesAlgebraic := by
  refine ⟨fun x y inverse i hi => ?_, invSbox_sbox, sbox_invSbox⟩
  have unique : y = fieldInverse x := by
    rcases inverse with product | ⟨rfl, rfl⟩
    · exact eq_fieldInverse_of_gmul_eq_one product
    · decide
  rw [unique]
  exact sbox_getLsbD x i hi

/-! ### The ciphers -/

/-- `InvSubBytes` undoes `SubBytes` (R128). -/
theorem invSubBytes_subBytes (s : Block) : invSubBytes (subBytes s) = s := by
  simp only [invSubBytes, subBytes, mapColumns, mapColumn, invSbox_sbox]

/-- A round of the inverse cipher takes a round of the forward cipher back, between the shifted rows of the one and of
the other (R130, R137). -/
theorem invRound_fwdRound (k : Block) (r : Nat) (s : Block) :
    invRound k r (shiftRows (subBytes (fwdRound k r s))) = shiftRows (subBytes s) := by
  rw [invRound, invShiftRows_shiftRows, invSubBytes_subBytes, fwdRound, addRoundKey_addRoundKey,
    invMixColumns_mixColumns]

theorem invRounds_fwdRounds (k : Block) (n : Nat) (s : Block) :
    invRounds k n (shiftRows (subBytes (fwdRounds k n s))) = shiftRows (subBytes s) := by
  induction n with
  | zero => rfl
  | succ n ih => rw [invRounds, fwdRounds, invRound_fwdRound, ih]

/-- Settles O24: the nine middle rounds cancel, and so do the first and the last key addition. -/
theorem inverseCipherUndoesCipher : Obligations.InverseCipherUndoesCipher := by
  intro k p
  rw [invCipher, cipher, addRoundKey_addRoundKey, invRounds_fwdRounds, invShiftRows_shiftRows, invSubBytes_subBytes,
    addRoundKey_addRoundKey]

end Sys2Proof.Machine
end

