-- ==== Sys2Proof/Proofs/Decryption.lean ====
section
/-! PROOFS. The two-ended decryption from 32 bytes on, the device side undone, and the command `DECRYPT`
(41_block_decrypt.md R131 to R138). -/
namespace Sys2Proof.Machine

/-! ### Disjoint blocks -/

/-- Settles O18: from 32 bytes on the write at the end leaves the first 16 bytes, and the middle lies between. -/
theorem decryptDisjointBlocks : Obligations.DecryptDisjointBlocks := by
  intro K V buf long
  have first : 16 ≤ (buf.take (buf.length - 16)).length := by rw [List.length_take]; omega
  have middle : buf.length - 16 - 16 = buf.length - 32 := by omega
  have shorter : min 16 (buf.length - 16) = 16 := by omega
  rw [decryptBuf, decryptAt_last K V (by omega), decryptAt_zero, List.take_append_of_le_length first,
    List.drop_append_of_le_length first, List.take_take, shorter, List.drop_take, middle, List.append_assoc]

theorem Block.toList_injective {a b : Block} (h : a.toList = b.toList) : a = b := by
  rw [← Block.ofList_toList a, h, Block.ofList_toList]

theorem Block.xor_self_xor (a b : Block) : a.xor (a.xor b) = b := by
  simp [Block.xor, Column.xor]

theorem Block.xor_left_cancel {a b c : Block} (h : a.xor b = a.xor c) : b = c := by
  rw [← Block.xor_self_xor a b, h, Block.xor_self_xor]

/-- Settles O19: the last block is xored with the IV, so it agrees with a chained decryption where the block before it
is the IV. -/
theorem notAChainedDecryption : Obligations.NotAChainedDecryption := by
  intro K V buf long prev
  have rest : ((buf.drop 16).take (buf.length - 32)).length = buf.length - 32 := by
    rw [List.length_take, List.length_drop]; omega
  have last : (decryptBuf K V buf).drop (buf.length - 16) =
      ((invCipher K (Block.ofList (buf.drop (buf.length - 16)))).xor V).toList := by
    rw [decryptDisjointBlocks K V buf long]
    exact List.drop_left' (by rw [List.length_append, Block.toList_length]; omega)
  rw [last]
  exact ⟨fun h => (Block.xor_left_cancel (Block.toList_injective h)).symm, fun h => by rw [h]⟩

/-! ### The device side undone -/

/-- One block decryption undoes what the device does to one block (R131, R138). -/
theorem decryptBlock_cipher_xor (K V p : Block) : decryptBlock K V (cipher K (p.xor V)) = p := by
  rw [decryptBlock, inverseCipherUndoesCipher, Block.xor_xor_self]

/-- A block that the device encrypted in place is decrypted in place to what it was (R133, R138). -/
theorem decryptAt_encryptAt (K V : Block) {buf : Bytes} {a : Nat} (h : a + 16 ≤ buf.length) :
    decryptAt K V (encryptAt K V buf a) a = buf := by
  have read (v : Block) : memRead (memWrite buf a v.toList) a 16 = v.toList := memRead_memWrite_same h
  have restore (v : Block) : memWrite (memWrite buf a v.toList) a (memRead buf a 16) = buf :=
    memWrite_memWrite_restore h
  rw [encryptAt, decryptAt, read, Block.ofList_toList, decryptBlock_cipher_xor, Block.toList_ofList (memRead_length h),
    restore]

/-- Settles O25: decryption takes the device's two blocks back in the opposite order, the last before the first. -/
theorem decryptUndoesEncrypt : Obligations.DecryptUndoesEncrypt := by
  intro K V p long
  have first : 0 + 16 ≤ p.length := by omega
  have length_eq : (encryptAt K V p 0).length = p.length := encryptAt_length first
  have last : p.length - 16 + 16 ≤ (encryptAt K V p 0).length := by omega
  rw [decryptBuf, encryptBuf, encryptAt_length last, length_eq, decryptAt_encryptAt K V last,
    decryptAt_encryptAt K V first]

/-! ### The command -/

section
variable {s : State} (live : s.Live)
include live

theorem exec_decrypt_of_live (buf : Bytes) :
    exec (.decrypt buf) s = s.whenBound fun s => s.decryptChecked buf fun p => .next (s.respond (.buffer p)) :=
  State.whenLive_of_live live fun s =>
    s.whenBound fun s => s.decryptChecked buf fun p => .next (s.respond (.buffer p))

theorem exec_decrypt_of_bound (bound : s.bound = true) (buf : Bytes) :
    exec (.decrypt buf) s = s.decryptChecked buf fun p => .next (s.respond (.buffer p)) := by
  rw [exec_decrypt_of_live live, State.whenBound_of_bound bound]

end

/-- Settles O20: all three checks pass. -/
theorem decryptCompletes : Obligations.DecryptCompletes := by
  intro buf s K V live ⟨bound, key, iv⟩ fits long
  rw [exec_decrypt_of_bound live bound, State.decryptChecked_ok fits long key iv]
  rfl

/-- Settles O21: each check, where those before it pass, raises its own fault. -/
theorem decryptFaultOrder : Obligations.DecryptFaultOrder := by
  refine fun buf s live => ⟨fun unbound => ?_, fun bound too_long => ?_, fun bound fits short => ?_⟩
  · rw [exec_decrypt_of_live live, State.whenBound_of_unbound unbound]
    rfl
  · rw [exec_decrypt_of_bound live bound, State.decryptChecked_tooLong too_long]
    rfl
  · rw [exec_decrypt_of_bound live bound, State.decryptChecked_short fits short]
    rfl

end Sys2Proof.Machine
end

