-- ==== Sys2Proof/Proofs/Records.lean ====
section
/-! PROOFS. The result word and its fields, the command `DECODE`, and the records the decoder runs (30_encoding.md R82;
43_decode.md R181 to R190). -/
namespace Sys2Proof.Machine

/-! ### The result word -/

/-- A range of bits is a field when it agrees with it bit by bit. -/
theorem extractLsb'_eq_of_bits {w : BitVec 32} {lo n : Nat} {field : BitVec n}
    (bits : ∀ i, i < n → w.getLsbD (lo + i) = field.getLsbD i) : w.extractLsb' lo n = field := by
  apply BitVec.eq_of_getLsbD_eq
  intro i hi
  rw [BitVec.getLsbD_extractLsb', decide_eq_true hi, Bool.true_and, bits i hi]

section
variable (ev : Event)

theorem pack_ok_low : (pack (.ok ev)).extractLsb' 0 4 = 0#4 :=
  extractLsb'_eq_of_bits fun i hi => by
    rw [pack_ok_getLsbD, if_pos (by omega), Bool.and_false, BitVec.getLsbD_zero]

theorem pack_ok_face : (pack (.ok ev)).extractLsb' 4 3 = ev.face.code :=
  extractLsb'_eq_of_bits fun i hi => by
    rw [pack_ok_getLsbD, if_neg (by omega), if_pos (by omega), decide_eq_true (by omega), Bool.true_and,
      Nat.add_sub_cancel_left]

theorem pack_ok_prime : (pack (.ok ev)).getLsbD 7 = ev.prime := by
  rw [pack_ok_getLsbD]
  rfl

theorem pack_ok_serial : (pack (.ok ev)).extractLsb' 8 8 = ev.serial :=
  extractLsb'_eq_of_bits fun i hi => by
    rw [pack_ok_getLsbD, if_neg (by omega), if_neg (by omega), if_neg (by omega), if_pos (by omega),
      decide_eq_true (by omega), Bool.true_and, Nat.add_sub_cancel_left]

theorem pack_ok_elapsed : (pack (.ok ev)).extractLsb' 16 16 = ev.elapsed :=
  extractLsb'_eq_of_bits fun i hi => by
    rw [pack_ok_getLsbD, if_neg (by omega), if_neg (by omega), if_neg (by omega), if_neg (by omega),
      decide_eq_true (by omega), Bool.true_and, Nat.add_sub_cancel_left]

end

/-- The tag of a word is part of its low four bits. -/
theorem tag_of_low {w : BitVec 32} (low : w.extractLsb' 0 4 = 0#4) :
    w.extractLsb' 0 2 = 0#2 ∧ w.extractLsb' 2 2 = 0#2 := by
  have bit (i : Nat) (hi : i < 4) : w.getLsbD i = false := by
    have := congrArg (·.getLsbD i) low
    simpa [hi] using this
  exact ⟨extractLsb'_eq_of_bits fun i hi => by rw [bit _ (by omega), BitVec.getLsbD_zero],
    extractLsb'_eq_of_bits fun i hi => by rw [bit _ (by omega), BitVec.getLsbD_zero]⟩

theorem Face.code_injective : ∀ {f g : Face}, f.code = g.code → f = g := by
  intro f g
  cases f <;> cases g <;> decide

theorem pack_ok_injective {ev ev' : Event} (h : pack (.ok ev) = pack (.ok ev')) : ev = ev' := by
  have serial := pack_ok_serial ev
  have face := pack_ok_face ev
  have prime := pack_ok_prime ev
  have elapsed := pack_ok_elapsed ev
  rw [h] at serial face prime elapsed
  rw [pack_ok_serial] at serial
  rw [pack_ok_face] at face
  rw [pack_ok_prime] at prime
  rw [pack_ok_elapsed] at elapsed
  cases ev
  cases ev'
  exact Event.mk.injEq .. |>.mpr ⟨serial.symm, Face.code_injective face.symm, prime.symm, elapsed.symm⟩

theorem pack_err_injective {f f' : DecodeFailure} (h : pack (.err f) = pack (.err f')) : f = f' := by
  cases f <;> cases f' <;> simp [pack] at h ⊢

/-- The tag of an event's word is 0, which no failure's is (R82). -/
theorem pack_ok_ne_err (ev : Event) (f : DecodeFailure) : pack (.ok ev) ≠ pack (.err f) := by
  intro h
  have tag := (tag_of_low (pack_ok_low ev)).1
  rw [h] at tag
  cases f <;> cases tag

/-- Settles O34: an event's word holds its four fields, a failure's is 1 or 2. -/
theorem packIsOneToOne : Obligations.PackIsOneToOne := by
  refine ⟨fun r r' h => ?_, fun r => ?_⟩
  · cases r with
    | ok ev =>
      cases r' with
      | ok ev' => rw [pack_ok_injective h]
      | err f => exact absurd h (pack_ok_ne_err ev f)
    | err f =>
      cases r' with
      | ok ev => exact absurd h.symm (pack_ok_ne_err ev f)
      | err f' => rw [pack_err_injective h]
  · cases r with
    | ok ev =>
      obtain ⟨tag, reserved⟩ := tag_of_low (pack_ok_low ev)
      rw [tag]
      exact ⟨reserved, by decide, by simp, fun h => absurd rfl h⟩
    | err f => cases f <;> exact ⟨rfl, by decide, by simp [pack], fun _ => rfl⟩

/-- Settles O35: by the two values of `prime`. -/
theorem directionFollowsPrime : Obligations.DirectionFollowsPrime := by
  intro ev
  rw [Event.command, Event.dir]
  cases ev.prime <;> exact ⟨rfl, rfl⟩

/-! ### Face codes -/

theorem faceOfCode_of_le : ∀ face : BitVec 4, face.toNat ≤ 5 →
    ∃ f ∈ [Face.U, .R, .F, .D, .L, .B], faceOfCode face = some f ∧ f.code.toNat = face.toNat := by decide

theorem faceOfCode_of_ge : ∀ face : BitVec 4, 6 ≤ face.toNat → faceOfCode face = none := by decide

section
variable (serial : Byte) (face : BitVec 4) (prime : Bool) (elapsed : BitVec 16)

/-- A face code of at most 5 makes an event, whose word holds the four fields (R182, R190). -/
theorem moveOutcome_of_le (code : face.toNat ≤ 5) :
    ∃ ev, moveOutcome serial face prime elapsed = .result (.ok ev) ∧
      EventWord (pack (.ok ev)) serial face prime elapsed := by
  obtain ⟨f, _, face_eq, code_eq⟩ := faceOfCode_of_le face code
  let ev : Event := { serial := serial, face := f, prime := prime, elapsed := elapsed }
  obtain ⟨tag, reserved⟩ := tag_of_low (pack_ok_low ev)
  exact ⟨ev, by rw [moveOutcome, face_eq], tag, reserved, by rw [pack_ok_face, code_eq], pack_ok_prime ev,
    pack_ok_serial ev, pack_ok_elapsed ev⟩

theorem moveOutcome_of_ge (code : 6 ≤ face.toNat) : moveOutcome serial face prime elapsed = .faceFault := by
  rw [moveOutcome, faceOfCode_of_ge face code]

end

/-! ### The command `DECODE` -/

section
variable {s : State} (live : s.Live)
include live

theorem exec_decode_of_live (buf : Bytes) : exec (.decode buf) s = .next (s.decodeChecked .decode buf) :=
  State.whenLive_of_live live fun s => .next (s.decodeChecked .decode buf)

theorem exec_decode_of_result {buf : Bytes} {r : EventResult} (fits : s.Fits buf)
    (decoded : decodeEvent buf = .result r) :
    exec (.decode buf) s = .next { s with work := none, out := .result (pack r) :: s.out } := by
  rw [exec_decode_of_live live, State.decodeChecked_fits fits, State.runDecoder_result decoded, State.own_delivered]
  rfl

theorem exec_decode_of_faceFault {buf : Bytes} (fits : s.Fits buf) (decoded : decodeEvent buf = .faceFault) :
    exec (.decode buf) s = .next { s with fault := 2#4, work := none, out := .faulted 2#4 :: s.out } := by
  rw [exec_decode_of_live live, State.decodeChecked_fits fits, State.runDecoder_faceFault decoded]
  rfl

end

/-- Settles O28: the fields make an event, and its word is the answer. -/
theorem decodeMoveCompletes : Obligations.DecodeMoveCompletes := by
  intro buf s live fits length_ge type_two code
  obtain ⟨ev, outcome, word⟩ :=
    moveOutcome_of_le (sbits buf 4 8) (sbits buf 12 4) (sbit buf 16) (sbits buf 47 16) code
  exact ⟨_, exec_decode_of_result live fits ((decodeEvent_of_move length_ge type_two).trans outcome), word⟩

/-- Settles O29: each failure is a result of the decoder, which packs to 2 or 1. -/
theorem decodeFailuresAreResults : Obligations.DecodeFailuresAreResults := by
  refine fun buf s live fits => ⟨fun nonempty other => ?_, fun _ type_two short => ?_, fun empty => ?_⟩
  · exact exec_decode_of_result live fits (decodeEvent_of_other_type nonempty other)
  · exact exec_decode_of_result live fits (decodeEvent_of_short type_two short)
  · subst empty
    exact exec_decode_of_result live fits rfl

/-- Settles O30: the length is checked before the decoder runs; the face code is the decoder's last check. -/
theorem decodeFaultOrder : Obligations.DecodeFaultOrder := by
  refine fun buf s live => ⟨fun too_long => ?_, fun fits length_ge type_two code => ?_⟩
  · rw [exec_decode_of_live live, State.decodeChecked_tooLong too_long]
    rfl
  · exact exec_decode_of_faceFault live fits
      ((decodeEvent_of_move length_ge type_two).trans (moveOutcome_of_ge _ _ _ _ code))

/-! ### The records -/

theorem State.runRecord_of_live {s : State} (live : s.Live) (r : DecodeOutcome) :
    s.runRecord r = .next (s.finishDecode r) := State.whenLive_of_live live _

theorem State.finishDecode_result (s : State) (r : EventResult) : s.finishDecode (.result r) = s.delivered (pack r) :=
  State.deliver_eq_delivered s (pack r)

/-- Settles O32: a record run by a live block ends as the decoder's outcome does. -/
theorem moveRecordOutcomes : Obligations.MoveRecordOutcomes := by
  intro serial face prime elapsed s live
  have run : exec (.move serial face prime elapsed) s =
      .next (s.finishDecode (moveOutcome serial face prime elapsed)) := State.runRecord_of_live live _
  rw [run]
  refine ⟨fun code => ?_, fun code => by rw [moveOutcome_of_ge _ _ _ _ code]; rfl⟩
  obtain ⟨ev, outcome, word⟩ := moveOutcome_of_le serial face prime elapsed code
  exact ⟨_, by rw [outcome, State.finishDecode_result], word⟩

/-- Settles O33: each of the fifteen runs `UnknownEventType`, which packs to 2. -/
theorem unknownRecordsComplete : Obligations.UnknownRecordsComplete := by
  intro s live i unknown
  have run : exec i s = s.runUnknown := by fin_cases unknown <;> rfl
  rw [run, State.runUnknown, State.runRecord_of_live live, State.finishDecode_result]
  rfl

/-- The instruction a buffer decodes to runs the decoder's outcome for that buffer (R182, log 6). -/
theorem exec_of_decodeRecord {buf : Bytes} {i : Instr} (h : decodeRecord buf = .ok i) (s : State) :
    exec i s = s.runRecord (decodeEvent buf) := by
  by_cases type_two : sbits buf 0 4 = 2#4
  · have length_ge : 8 ≤ buf.length := by
      by_contra short
      obtain ⟨e, refused⟩ := decodeRecord_of_short (.inr ⟨type_two, not_le.mp short⟩)
      cases h.symm.trans refused
    rw [decodeRecord_of_move length_ge type_two] at h
    rw [decodeEvent_of_move length_ge type_two]
    cases h
    rfl
  · have nonempty : buf ≠ [] := by rintro rfl; cases h
    have code : (sbits buf 0 4).toNat ≠ 2 := fun code => type_two (BitVec.eq_of_toNat_eq code)
    rw [decodeEvent_of_other_type nonempty type_two]
    rw [decodeRecord, if_neg (mt List.length_eq_zero_iff.mp nonempty)] at h
    split at h
    case h_3 two => exact absurd two code
    all_goals
      cases h
      rfl

end Sys2Proof.Machine
end

