-- ==== Sys2Proof/Proofs/Polls.lean ====
section
/-! PROOFS. The three polls, by the answer of their pull: a quiet answer, an item delivered, an item lost to a fault
(10_state.md R31; 42_decrypt_transform.md R160 to R164; 44_decode_transform.md R210, R212). -/
namespace Sys2Proof.Machine

/-! ### The pull and what follows it -/

/-- Settles O36: the script's oldest answer, else the next free draw. -/
theorem pullTakesOneAnswer : Obligations.PullTakesOneAnswer :=
  fun s => ⟨fun _ _ script => State.pull_cons script, fun empty => by rw [State.pull, empty]⟩

/-- The length bound is the same after a pull. -/
theorem State.fits_pulled {s : State} {buf : Bytes} : s.pull.2.countTaken.Fits buf ↔ s.Fits buf := by
  simp only [State.Fits, State.countTaken_maxBufLen, State.pull_maxBufLen]

/-- The state after a quiet answer: the upstream has moved, nothing of the block has changed (R162, R163). -/
theorem State.pulled_respond (s : State) (r : Response) :
    s.pull.2.respond r =
      { s with upstream := s.pull.2.upstream, draws := s.pull.2.draws, work := none, out := r :: s.out } := by
  rw [State.respond, State.pull_snd]

/-- The state after an item delivered (R160). -/
theorem State.pulled_deliver (s : State) (r : Response) :
    s.pull.2.countTaken.countItem.respond r =
      { s.pull.2 with upTaken := s.upTaken + 1, itemsOut := s.itemsOut + 1, work := none, out := r :: s.out } := by
  simp only [State.respond, State.countItem, State.countTaken, State.pull_upTaken, State.pull_itemsOut, State.pull_out]

/-- The state after an item lost to a fault: it is counted as taken only (R235, R236). -/
theorem State.pulled_raiseFault (s : State) (c : FaultCode) :
    s.pull.2.countTaken.raiseFault c =
      { s.pull.2 with upTaken := s.upTaken + 1, fault := c.code, work := none, out := .faulted c.code :: s.out } := by
  simp only [State.raiseFault, State.respond, State.countTaken, State.pull_upTaken, State.pull_out]

/-- A quiet answer of the upstream, and the response that passes it on (R162, R163). -/
def QuietAnswer (a : UpAnswer) (r : Response) : Prop :=
  a = .notReady ∧ r = .notReady ∨ a = .exhausted ∧ r = .exhausted

theorem State.afterPull_quiet {α : Type} {s : State} {r : Response} (quiet : QuietAnswer s.pull.1 r) (lift : State → α)
    (item : Bytes → State → α) : s.afterPull lift item = lift (s.pull.2.respond r) := by
  rcases quiet with ⟨answer, rfl⟩ | ⟨answer, rfl⟩
  · exact State.afterPull_notReady answer lift item
  · exact State.afterPull_exhausted answer lift item

/-- A poll that runs: `POLL_EVT`, or a decrypting poll in a bound session (R160, R212, decision D29). -/
def State.CanPoll (s : State) (i : Instr) : Prop :=
  i = .pollEvt ∨ (s.bound = true ∧ (i = .pollDec ∨ i = .poll))

/-- What the decoder delivers of a pulled item, for either poll that decodes. -/
theorem State.runDecoder_item {s : State} {o : Owner} (poll : o ≠ .decode) {buf : Bytes} {r : EventResult}
    (decoded : decodeEvent buf = .result r) : s.runDecoder o buf = s.countItem.respond (.itemResult (pack r)) := by
  rw [State.runDecoder_result decoded, State.own_delivered, if_neg poll]

/-! ### The polls of a live block -/

section
variable {s : State} (live : s.Live)
include live

theorem exec_pollEvt_of_live :
    exec .pollEvt s = .next (s.afterPull id fun buf s => s.decodeChecked .pollEvt buf) :=
  State.whenLive_of_live live fun s => .next (s.afterPull id fun buf s => s.decodeChecked .pollEvt buf)

theorem exec_pollDec_of_live :
    exec .pollDec s = s.whenBound fun s => s.afterPull .next fun buf s =>
      s.decryptChecked buf fun p => .next (s.countItem.respond (.itemBuffer p)) :=
  State.whenLive_of_live live fun s => s.whenBound fun s => s.afterPull .next fun buf s =>
    s.decryptChecked buf fun p => .next (s.countItem.respond (.itemBuffer p))

theorem exec_poll_of_live :
    exec .poll s = s.whenBound fun s => s.afterPull .next fun buf s =>
      s.decryptChecked buf fun p => .next (s.runDecoder .poll p) :=
  State.whenLive_of_live live fun s => s.whenBound fun s => s.afterPull .next fun buf s =>
    s.decryptChecked buf fun p => .next (s.runDecoder .poll p)

theorem exec_of_quiet {i : Instr} {r : Response} (poll : s.CanPoll i) (quiet : QuietAnswer s.pull.1 r) :
    exec i s = .next (s.pull.2.respond r) := by
  rcases poll with rfl | ⟨bound, rfl | rfl⟩
  · rw [exec_pollEvt_of_live live, State.afterPull_quiet quiet, id]
  · rw [exec_pollDec_of_live live, State.whenBound_of_bound bound, State.afterPull_quiet quiet]
  · rw [exec_poll_of_live live, State.whenBound_of_bound bound, State.afterPull_quiet quiet]

section
variable {buf : Bytes} (answer : s.pull.1 = .ready buf)
include answer

theorem exec_pollEvt_of_ready : exec .pollEvt s = .next (s.pull.2.countTaken.decodeChecked .pollEvt buf) := by
  rw [exec_pollEvt_of_live live, State.afterPull_ready answer]

theorem exec_pollDec_of_ready (bound : s.bound = true) :
    exec .pollDec s = s.pull.2.countTaken.decryptChecked buf fun p =>
      .next (s.pull.2.countTaken.countItem.respond (.itemBuffer p)) := by
  rw [exec_pollDec_of_live live, State.whenBound_of_bound bound, State.afterPull_ready answer]

theorem exec_poll_of_ready (bound : s.bound = true) :
    exec .poll s = s.pull.2.countTaken.decryptChecked buf fun p => .next (s.pull.2.countTaken.runDecoder .poll p) := by
  rw [exec_poll_of_live live, State.whenBound_of_bound bound, State.afterPull_ready answer]

/-- The item of a bound session, long enough and within the bound, is decrypted and decoded. -/
theorem exec_poll_of_session {K V : Block} (session : s.Session K V) (fits : s.Fits buf) (long : 16 < buf.length) :
    exec .poll s = .next (s.pull.2.countTaken.runDecoder .poll (decryptBuf K V buf)) := by
  obtain ⟨bound, key, iv⟩ := session
  rw [exec_poll_of_ready live answer bound,
    State.decryptChecked_ok (State.fits_pulled.mpr fits) long (by simpa using key) (by simpa using iv)]

end

end

/-! ### Quiet answers, and the missing session -/

/-- Settles O37: a quiet answer is passed on before anything else is looked at. -/
theorem quietAnswersPassThrough : Obligations.QuietAnswersPassThrough := by
  intro s a r live answer quiet i poll
  subst answer
  rw [exec_of_quiet live poll quiet, State.pulled_respond]

/-- Settles O38: the session is checked before the pull. -/
theorem pollsNeedSession : Obligations.PollsNeedSession := by
  intro s i live unbound poll
  rcases poll with rfl | rfl
  · rw [exec_pollDec_of_live live, State.whenBound_of_unbound unbound]
    rfl
  · rw [exec_poll_of_live live, State.whenBound_of_unbound unbound]
    rfl

/-! ### Items delivered -/

/-- Settles O39: all checks pass, and the decrypted item is delivered as it is. -/
theorem pollDecDeliversItem : Obligations.PollDecDeliversItem := by
  intro buf s K V live ⟨bound, key, iv⟩ answer fits long
  rw [exec_pollDec_of_ready live answer bound,
    State.decryptChecked_ok (State.fits_pulled.mpr fits) long (by simpa using key) (by simpa using iv),
    State.pulled_deliver]

/-- Settles O40: the decoder's result, a failure too, is the item delivered. -/
theorem pollEvtDeliversItem : Obligations.PollEvtDeliversItem := by
  intro buf s r live answer fits decoded
  rw [exec_pollEvt_of_ready live answer, State.decodeChecked_fits (State.fits_pulled.mpr fits),
    State.runDecoder_item (by decide) decoded, State.pulled_deliver]

/-- Settles O41: the decoder's result for the decrypted item is the item delivered. -/
theorem pollDeliversItem : Obligations.PollDeliversItem := by
  intro buf s K V r live session answer fits long decoded
  rw [exec_poll_of_session live answer session fits long, State.runDecoder_item (by decide) decoded,
    State.pulled_deliver]

/-! ### Items lost -/

/-- Settles O42: each check after the pull raises its fault in the state that has counted the item as taken. -/
theorem pollFaultsLoseTheItem : Obligations.PollFaultsLoseTheItem := by
  intro buf s live answer faulted
  have lost (c : FaultCode) : .next (s.pull.2.countTaken.raiseFault c) = faulted c.code := by
    rw [State.pulled_raiseFault]
  refine ⟨fun too_long => ?_, fun too_long bound => ?_, fun fits bound short => ?_, fun fits decoded => ?_,
    fun K V session fits long decoded => ?_⟩
  · rw [exec_pollEvt_of_ready live answer, State.decodeChecked_tooLong (mt State.fits_pulled.mp too_long), lost]
    rfl
  · rw [exec_pollDec_of_ready live answer bound, exec_poll_of_ready live answer bound,
      State.decryptChecked_tooLong (mt State.fits_pulled.mp too_long),
      State.decryptChecked_tooLong (mt State.fits_pulled.mp too_long), lost]
    exact ⟨rfl, rfl⟩
  · rw [exec_pollDec_of_ready live answer bound, exec_poll_of_ready live answer bound,
      State.decryptChecked_short (State.fits_pulled.mpr fits) short,
      State.decryptChecked_short (State.fits_pulled.mpr fits) short, lost]
    exact ⟨rfl, rfl⟩
  · rw [exec_pollEvt_of_ready live answer, State.decodeChecked_fits (State.fits_pulled.mpr fits),
      State.runDecoder_faceFault decoded]
    exact lost .faceCodeRange
  · rw [exec_poll_of_session live answer session fits long, State.runDecoder_faceFault decoded]
    exact lost .faceCodeRange

/-! ### Keys without a value -/

section
variable {s : State} {buf : Bytes} (fits : s.Fits buf) (long : 16 < buf.length)
include fits long

/-- A decryption with no key stops at the read of the key (R33). -/
theorem State.decryptChecked_no_key (no_key : s.effKey = none) (k : Bytes → Answer) :
    s.decryptChecked buf k = .fault .effKeyUnwritten := by
  simp [State.decryptChecked, State.tooLong_of_fits fits, Nat.not_le.mpr long, State.readEffKey, no_key]

/-- A decryption with a key and no IV stops at the read of the IV (R33). -/
theorem State.decryptChecked_no_iv {K : Block} (key : s.effKey = some K) (no_iv : s.effIv = none)
    (k : Bytes → Answer) : s.decryptChecked buf k = .fault .effIvUnwritten := by
  simp [State.decryptChecked, State.tooLong_of_fits fits, Nat.not_le.mpr long, State.readEffKey, State.readEffIv, key,
    no_iv]

end

/-- An instruction that comes to decrypt a buffer does so in a state with the session and the length bound of `s`. -/
theorem exec_comes_to_decrypt {s : State} {buf : Bytes} {i : Instr} (live : s.Live) (bound : s.bound = true)
    (reader : i = .decrypt buf ∨ (s.pull.1 = .ready buf ∧ (i = .pollDec ∨ i = .poll))) :
    ∃ (s' : State) (k : Bytes → Answer), exec i s = s'.decryptChecked buf k ∧ (s'.Fits buf ↔ s.Fits buf) ∧
      s'.effKey = s.effKey ∧ s'.effIv = s.effIv := by
  rcases reader with rfl | ⟨answer, rfl | rfl⟩
  · exact ⟨s, _, exec_decrypt_of_bound live bound buf, Iff.rfl, rfl, rfl⟩
  · exact ⟨_, _, exec_pollDec_of_ready live answer bound, State.fits_pulled, by simp, by simp⟩
  · exact ⟨_, _, exec_poll_of_ready live answer bound, State.fits_pulled, by simp, by simp⟩

/-- Settles O56: all three instructions come to the same decryption, which reads the key and then the IV. -/
theorem unwrittenSessionReadFaults : Obligations.UnwrittenSessionReadFaults := by
  intro buf s live bound fits long i reader
  obtain ⟨s', k, run, fits_iff, key_eq, iv_eq⟩ := exec_comes_to_decrypt live bound reader
  refine ⟨fun no_key => ?_, fun some_key no_iv => ?_⟩
  · rw [run, State.decryptChecked_no_key (fits_iff.mpr fits) long (key_eq.trans no_key)]
  · obtain ⟨K, key⟩ := Option.ne_none_iff_exists'.mp some_key
    rw [run, State.decryptChecked_no_iv (fits_iff.mpr fits) long (key_eq.trans key) (iv_eq.trans no_iv)]

/-! ### The record of a command -/

/-- A live block runs a record for its owner as the decoder does. -/
theorem exec_record_of_own {s : State} {buf : Bytes} {i : Instr} (live : s.Live) (decoded : decodeRecord buf = .ok i)
    (o : Owner) : exec i (s.own o buf) = .next (s.runDecoder o buf) := by
  have own_live : (s.own o buf).Live := live
  rw [exec_of_decodeRecord decoded, State.runRecord_of_live own_live, State.runDecoder]

/-- Settles O31: command and record run the decoder's outcome for the buffer, in the same state. -/
theorem commandsRunTheirRecord : Obligations.CommandsRunTheirRecord := by
  refine fun buf s i live fits decoded => ⟨?_, fun answer => ?_⟩
  · rw [exec_decode_of_live live, State.decodeChecked_fits fits, exec_record_of_own live decoded]
  · have pulled_live : s.pull.2.countTaken.Live := (State.pull_fault s).trans live
    rw [exec_pollEvt_of_ready live answer, State.decodeChecked_fits (State.fits_pulled.mpr fits),
      ← exec_record_of_own pulled_live decoded, State.own, State.countTaken, State.pull_upTaken]

end Sys2Proof.Machine
end

