-- ==== Sys2Proof/Proofs/Pipeline.lean ====
section
/-! PROOFS. The polls together: `POLL` as the composition of the two transforms, runs of polls over an upstream script,
and an exhausted upstream (44_decode_transform.md R212 to R216; 10_state.md R31). -/
namespace Sys2Proof.Machine

/-! ### The two decrypting polls -/

/-- A checked decryption ends alike whatever comes after it, in a fault if in a next state, or it decrypts. -/
theorem State.decryptChecked_cases (s : State) (buf : Bytes) :
    (∃ a, (∀ k, s.decryptChecked buf k = a) ∧ ∀ t, a = .next t → ∃ c, t = s.raiseFault c) ∨
      ∃ K V, s.effKey = some K ∧ s.effIv = some V ∧ s.Fits buf ∧ 16 < buf.length := by
  by_cases fits : s.Fits buf
  · by_cases short : buf.length ≤ 16
    · exact .inl ⟨_, State.decryptChecked_short fits short, fun _ h => ⟨_, by cases h; rfl⟩⟩
    · have long := not_le.mp short
      cases key : s.effKey with
      | none => exact .inl ⟨_, State.decryptChecked_no_key fits long key, fun _ h => nomatch h⟩
      | some K =>
        cases iv : s.effIv with
        | none => exact .inl ⟨_, State.decryptChecked_no_iv fits long key iv, fun _ h => nomatch h⟩
        | some V => exact .inr ⟨K, V, rfl, rfl, fits, long⟩
  · exact .inl ⟨_, State.decryptChecked_tooLong fits, fun _ h => ⟨_, by cases h; rfl⟩⟩

/-- A response that delivers no item. -/
def Undelivered (r : Response) : Prop := r = .notReady ∨ r = .exhausted ∨ ∃ c, r = .faulted c

/-- What `POLL_DEC` and `POLL` do, given what each does with the decrypted item. -/
def State.pollDecrypting (s : State) (deliver : Bytes → State → State) : Answer :=
  s.whenBound fun s => s.afterPull .next fun buf s => s.decryptChecked buf fun p => .next (deliver p s)

theorem exec_pollDec_eq {s : State} (live : s.Live) :
    exec .pollDec s = s.pollDecrypting fun p s => s.countItem.respond (.itemBuffer p) := exec_pollDec_of_live live

theorem exec_poll_eq {s : State} (live : s.Live) : exec .poll s = s.pollDecrypting fun p s => s.runDecoder .poll p :=
  exec_poll_of_live live

/-- A decrypting poll ends alike whatever it would deliver, and then with no item in its response, or it delivers the
decrypted item. -/
theorem State.pollDecrypting_cases (s : State) :
    (∃ a, (∀ deliver, s.pollDecrypting deliver = a) ∧
        ∀ t, a = .next t → ∃ r, Undelivered r ∧ t.out = r :: s.out) ∨
      ∃ buf K V, s.pull.1 = .ready buf ∧ s.Fits buf ∧ 16 < buf.length ∧
        ∀ deliver, s.pollDecrypting deliver = .next (deliver (decryptBuf K V buf) s.pull.2.countTaken) := by
  cases bound : s.bound with
  | false =>
    exact .inl ⟨_, fun _ => State.whenBound_of_unbound bound _, fun t h => ⟨_, .inr (.inr ⟨_, rfl⟩), by cases h; rfl⟩⟩
  | true =>
    have unfolded (deliver : Bytes → State → State) : s.pollDecrypting deliver =
        s.afterPull .next fun buf s => s.decryptChecked buf fun p => .next (deliver p s) :=
      State.whenBound_of_bound bound _
    cases answer : s.pull.1 with
    | notReady =>
      refine .inl ⟨_, fun deliver => (unfolded deliver).trans (State.afterPull_notReady answer _ _), fun t h => ?_⟩
      cases h
      exact ⟨_, .inl rfl, by simp⟩
    | exhausted =>
      refine .inl ⟨_, fun deliver => (unfolded deliver).trans (State.afterPull_exhausted answer _ _), fun t h => ?_⟩
      cases h
      exact ⟨_, .inr (.inl rfl), by simp⟩
    | ready buf =>
      have pulled (deliver : Bytes → State → State) := (unfolded deliver).trans (State.afterPull_ready answer _ _)
      rcases State.decryptChecked_cases s.pull.2.countTaken buf with ⟨a, alike, faults⟩ | ⟨K, V, key, iv, fits, long⟩
      · refine .inl ⟨a, fun deliver => (pulled deliver).trans (alike _), fun t h => ?_⟩
        obtain ⟨c, rfl⟩ := faults t h
        exact ⟨.faulted c.code, .inr (.inr ⟨_, rfl⟩), by simp⟩
      · exact .inr ⟨buf, K, V, rfl, State.fits_pulled.mp fits, long, fun deliver =>
          (pulled deliver).trans (State.decryptChecked_ok fits long key iv _)⟩

theorem Undelivered.ne_item {r : Response} (h : Undelivered r) :
    (∀ p, r ≠ .itemBuffer p) ∧ ∀ w, r ≠ .itemResult w := by
  rcases h with rfl | rfl | ⟨c, rfl⟩ <;> simp

/-! ### The composition -/

/-- The decoder does the same for the two polls that decode: both deliver a counted item. -/
theorem State.runDecoder_poll (s : State) (buf : Bytes) : s.runDecoder .poll buf = s.runDecoder .pollEvt buf := by
  cases decoded : decodeEvent buf with
  | result r => rw [State.runDecoder_item (by decide) decoded, State.runDecoder_item (by decide) decoded]
  | faceFault =>
    rw [State.runDecoder_faceFault decoded, State.runDecoder_faceFault decoded]
    rfl

/-- `POLL_EVT` on a script whose next answer is an item within the bound. -/
theorem exec_pollEvt_of_item_before {s : State} (live : s.Live) {p : Bytes} (fits : s.Fits p) :
    exec .pollEvt { s with upstream := .ready p :: s.upstream } = .next (s.countTaken.runDecoder .pollEvt p) := by
  have live' : State.Live { s with upstream := .ready p :: s.upstream } := live
  have pulled : State.pull { s with upstream := .ready p :: s.upstream } = (.ready p, s) := State.pull_cons rfl
  have answer : (State.pull { s with upstream := .ready p :: s.upstream }).1 = .ready p := congrArg Prod.fst pulled
  have fits' : s.countTaken.Fits p := fits
  rw [exec_pollEvt_of_ready live' answer, pulled, State.decodeChecked_fits fits']

/-- Settles O43: a decrypting poll that delivers hands its item to the decoder as an upstream would; one that does not
ends alike for both. -/
theorem pollIsTheComposition : Obligations.PollIsTheComposition := by
  intro s live
  rw [exec_pollDec_eq live, exec_poll_eq live]
  rcases s.pollDecrypting_cases with ⟨a, alike, undelivered⟩ | ⟨buf, K, V, _, fits, long, delivers⟩
  · rw [alike, alike]
    refine ⟨fun t p h item => ?_, fun _ => rfl⟩
    obtain ⟨r, no_item, out_eq⟩ := undelivered t h
    exact absurd (List.head_eq_of_cons_eq (out_eq.symm.trans item)) (no_item.ne_item.1 p)
  · rw [delivers, delivers]
    have out_eq (r : Response) : (s.pull.2.countTaken.countItem.respond r).out = r :: s.out := by simp
    refine ⟨fun t p h item => ?_, fun no_item => absurd (out_eq _) (no_item _ _ rfl)⟩
    cases h
    cases List.head_eq_of_cons_eq ((out_eq _).symm.trans item)
    have fits' : s.pull.2.Fits (decryptBuf K V buf) := by
      simpa only [State.Fits, State.pull_maxBufLen, decryptBuf_length long] using fits
    rw [exec_pollEvt_of_item_before ((State.pull_fault s).trans live) fits', State.runDecoder_poll]

/-- Only a buffer of fewer than 8 bytes is `InvalidLength` (R184, R187). -/
theorem length_of_decodeEvent_invalidLength {buf : Bytes} (h : decodeEvent buf = .result (.err .invalidLength)) :
    buf.length < 8 := by
  by_cases type_two : sbits buf 0 4 = 2#4
  · exact (decodeEvent_invalidLength_iff type_two).mp h
  · by_cases empty : buf = []
    · simp [empty]
    · cases (decodeEvent_of_other_type empty type_two).symm.trans h

/-- Settles O44: the decoder sees only decrypted items, which have more than 16 bytes. -/
theorem pollNeverInvalidLength : Obligations.PollNeverInvalidLength := by
  intro s t h item
  by_cases live : s.Live
  swap
  · rw [exec_of_faulted live (by simp)] at h
    cases h
    simp at item
  rw [exec_poll_eq live] at h
  rcases s.pollDecrypting_cases with ⟨a, alike, undelivered⟩ | ⟨buf, K, V, _, _, long, delivers⟩
  · obtain ⟨r, no_item, out_eq⟩ := undelivered t ((alike _).symm.trans h)
    exact no_item.ne_item.2 _ (List.head_eq_of_cons_eq (out_eq.symm.trans item))
  · rw [delivers] at h
    cases h
    cases decoded : decodeEvent (decryptBuf K V buf) with
    | result r =>
      rw [State.runDecoder_item (by decide) decoded] at item
      have word : pack r = 1#32 := by simpa using item
      rw [packIsOneToOne.1 r (.err .invalidLength) word] at decoded
      have short := length_of_decodeEvent_invalidLength decoded
      rw [decryptBuf_length long] at short
      omega
    | faceFault =>
      rw [State.runDecoder_faceFault decoded] at item
      simp at item

/-! ### Runs of polls -/

/-- The state after a step has delivered one result, with the upstream script and the inbox one shorter. -/
def State.afterItem (s : State) (script : List UpAnswer) (rest : List HostInput) (r : EventResult) : State :=
  { s with upstream := script, inbox := rest, upTaken := s.upTaken + 1, itemsOut := s.itemsOut + 1,
           out := .itemResult (pack r) :: s.out }

/-- A run takes the step, then goes on. -/
theorem run_succ_of_step {s t : State} (h : step s = .next t) (n : Nat) :
    Host.Core.run Sys2Proof.core (n + 1) s = Host.Core.run Sys2Proof.core n t := by
  have core_step : Sys2Proof.core.step s = .next t := h
  simp only [Host.Core.run, core_step]

section
variable {cmd : Byte} {Gives : State → Bytes → EventResult → Prop}

/-- A run of one command over a script of items, where each step delivers its item's result and what the later items
give does not depend on what was delivered. -/
theorem run_delivers_in_order
    (delivers : ∀ {s : State} {b : Bytes} {r : EventResult} {script : List UpAnswer} {rest : List HostInput},
      s.work = none → s.upstream = .ready b :: script → s.inbox = .command cmd [] :: rest → Gives s b r →
      step s = .next (s.afterItem script rest r))
    (keeps : ∀ {s : State} {b : Bytes} {r : EventResult} (script : List UpAnswer) (rest : List HostInput)
      (r' : EventResult), Gives s b r → Gives (s.afterItem script rest r') b r)
    {bufs : List Bytes} {rs : List EventResult} {s : State} (idle : s.work = none)
    (script : s.upstream = bufs.map UpAnswer.ready)
    (commands : s.inbox = List.replicate bufs.length (.command cmd []))
    (gives : List.Forall₂ (Gives s) bufs rs) :
    Host.Core.run Sys2Proof.core bufs.length s =
      .next
        { s with upstream := [], inbox := [], upTaken := s.upTaken + bufs.length, itemsOut := s.itemsOut + bufs.length,
                 out := (rs.map fun r => Response.itemResult (pack r)).reverse ++ s.out } := by
  induction bufs generalizing rs s with
  | nil =>
    cases gives
    have script_empty : s.upstream = [] := script
    have inbox_empty : s.inbox = [] := commands
    rw [← script_empty, ← inbox_empty]
    rfl
  | cons b bufs ih =>
    cases gives with
    | @cons _ r _ rs first others =>
    have one := delivers idle script commands first
    rw [List.length_cons, run_succ_of_step one,
      ih (s := s.afterItem (bufs.map UpAnswer.ready) (List.replicate bufs.length (.command cmd [])) r) idle rfl rfl
        (others.imp fun _ _ => keeps _ _ _)]
    simp [State.afterItem, Nat.add_assoc, Nat.add_comm 1]

end

/-- An item within the bound that the decoder has a result for, before a live block. -/
def State.EventItem (s : State) (b : Bytes) (r : EventResult) : Prop :=
  s.Live ∧ s.Fits b ∧ decodeEvent b = .result r

/-- An item that `POLL` decrypts in the session of a live block and has a result for. -/
def State.SessionItem (K V : Block) (s : State) (b : Bytes) (r : EventResult) : Prop :=
  s.Live ∧ s.Session K V ∧ s.Fits b ∧ 16 < b.length ∧ decodeEvent (decryptBuf K V b) = .result r

section
variable {s : State} {K V : Block} {b : Bytes} {r : EventResult} {script : List UpAnswer} {rest : List HostInput}
  (idle : s.work = none) (offered : s.upstream = .ready b :: script)
include idle offered

/-- The step on 0x60 is `POLL_EVT`. -/
theorem step_pollEvt_delivers (input : s.inbox = .command 0x60#8 [] :: rest) (item : s.EventItem b r) :
    step s = .next (s.afterItem script rest r) := by
  obtain ⟨live, fits, decoded⟩ := item
  have pulled : State.pull { s with inbox := rest } = (.ready b, { s with inbox := rest, upstream := script }) :=
    State.pull_cons offered
  have delivered := pollEvtDeliversItem b { s with inbox := rest } r live (by rw [pulled]) fits decoded
  rw [step_of_accepted idle input rfl, delivered, pulled, State.afterItem, idle]

/-- The step on 0x70 is `POLL`. -/
theorem step_poll_delivers (input : s.inbox = .command 0x70#8 [] :: rest) (item : s.SessionItem K V b r) :
    step s = .next (s.afterItem script rest r) := by
  obtain ⟨live, session, fits, long, decoded⟩ := item
  have pulled : State.pull { s with inbox := rest } = (.ready b, { s with inbox := rest, upstream := script }) :=
    State.pull_cons offered
  have delivered :=
    pollDeliversItem b { s with inbox := rest } K V r live session (by rw [pulled]) fits long decoded
  rw [step_of_accepted idle input rfl, delivered, pulled, State.afterItem, idle]

end

/-- Settles O45: each step delivers the decoder's result for its item, whatever was delivered before. -/
theorem eventStreamInOrder : Obligations.EventStreamInOrder :=
  ⟨rfl, rfl, fun _ _ _ live idle script commands items =>
    run_delivers_in_order (Gives := State.EventItem) step_pollEvt_delivers (fun _ _ _ item => item) idle script
      commands (items.imp fun _ _ item => ⟨live, item⟩)⟩

/-- Settles O46: each step delivers the decoder's result for its decrypted item, under the one session. -/
theorem pipelineStreamInOrder : Obligations.PipelineStreamInOrder :=
  fun _ _ _ K V live idle session script commands items =>
    run_delivers_in_order (Gives := State.SessionItem K V) step_poll_delivers (fun _ _ _ item => item) idle script
      commands (items.imp fun _ _ item => ⟨live, session, item⟩)

/-! ### The exhausted upstream -/

/-- Settles O47: the answers after the pull are those before it moved up by one, and answer 0 was `Exhausted`. -/
theorem fusedUpstreamStaysExhausted : Obligations.FusedUpstreamStaysExhausted := by
  intro k s live fused answer i poll
  have moved (n : Nat) : (s.pull.2.respond .exhausted).answerAt n = s.answerAt (n + 1) := s.answerAt_pull n
  refine ⟨_, exec_of_quiet live poll (.inr ⟨answer, rfl⟩), by simp, fun n m order low exhausted => ?_, ?_⟩
  · rw [moved] at exhausted ⊢
    exact fused _ _ (by omega) (by omega) exhausted
  · rw [← State.answerAt_zero, moved]
    exact fused 0 1 (by omega) (by omega) (s.answerAt_zero.trans answer)

end Sys2Proof.Machine
end

