-- ==== Sys2Proof/Proofs/Faults.lean ====
section
/-! PROOFS. How a fault is entered, what a faulted block answers, and how it is left (30_encoding.md R74;
60_exceptions.md R232 to R237). -/
namespace Sys2Proof.Machine

/-- A word is delivered as a response of `DECODE`, or as a counted item of a poll (R80, R189, R210). -/
theorem State.delivered_cases (s : State) (w : BitVec 32) :
    (s.owner = .decode ∧ s.delivered w = s.respond (.result w)) ∨
      (s.owner ≠ .decode ∧ s.delivered w = s.countItem.respond (.itemResult w)) := by
  by_cases owner : s.owner = .decode
  · exact .inl ⟨owner, if_pos owner⟩
  · exact .inr ⟨owner, if_neg owner⟩

@[simp] theorem State.delivered_fault (s : State) (w : BitVec 32) : (s.delivered w).fault = s.fault := by
  rcases s.delivered_cases w with ⟨_, e⟩ | ⟨_, e⟩ <;> rw [e] <;> rfl

/-- Settles O48: each of the eight is `BAD_COMMAND` by its meaning. -/
theorem reservedOperationsFault : Obligations.ReservedOperationsFault := by
  intro low payload s live i reserved
  have run : exec i s = s.badCommand := by fin_cases reserved <;> rfl
  rw [run, State.badCommand_of_live live]

/-! ### A faulted block -/

/-- The only command that decodes to `STATUS` is 0x80 with no payload (R71). -/
theorem status_of_decodeCommand {cmd : Byte} {payload : Bytes} (h : decodeCommand cmd payload = .ok .status) :
    cmd = 0x80#8 ∧ payload = [] := by
  obtain ⟨bytes, _, _⟩ := commandBytesDetermined cmd payload .status h
  cases bytes
  exact ⟨rfl, rfl⟩

/-- Settles O49: a command is rejected or decodes to an instruction other than `STATUS`, and a faulted block answers
both alike. -/
theorem faultedBlockRunsNothing : Obligations.FaultedBlockRunsNothing := by
  refine ⟨fun i s faulted other => exec_of_faulted faulted other,
    fun s cmd payload rest faulted idle input other => ?_⟩
  have faulted' : ¬ State.Live { s with inbox := rest } := faulted
  cases decoded : decodeCommand cmd payload with
  | ok i =>
    have not_status : i ≠ .status := by
      rintro rfl
      exact other (status_of_decodeCommand decoded)
    rw [step_of_accepted idle input decoded, exec_of_faulted faulted' not_status, idle]
  | error e =>
    rw [step_of_refused idle input decoded, State.badCommand, State.whenLive_of_faulted faulted', idle]

/-- No instruction changes a pending fault (R234). -/
theorem ExecCase.fault_eq_of_faulted {i : Instr} {s t : State} (run : ExecCase i s t) (faulted : ¬ s.Live) :
    t.fault = s.fault := by
  cases run with
  | faulted _ _ | status _ => rfl
  | raise _ live _ | bind _ _ _ _ live _ _ | release live _ | decrypt _ _ live _ _ | decode _ _ live _
  | record _ live _ | notReady live _ _ | exhausted live _ _ | lost _ _ live _ _ | item _ _ live _ _ =>
    exact absurd live faulted

/-- Settles O50: of all a step can do, only the reset event changes a pending fault. -/
theorem onlyResetClearsFault : Obligations.OnlyResetClearsFault := by
  intro s t taken_step faulted changed
  cases step_cases taken_step with
  | reset rest idle input => exact ⟨idle, ⟨rest, input⟩, rfl⟩
  | idle _ _ | badCommandFaulted _ _ _ _ _ _ | shortRecordFaulted _ _ _ => exact absurd rfl changed
  | badCommand _ _ _ _ _ live | shortRecord _ _ live => exact absurd live faulted
  | command _ _ rest _ _ _ _ _ run => exact absurd (run.fault_eq_of_faulted faulted) changed
  | record _ _ _ _ _ run => exact absurd (run.fault_eq_of_faulted faulted) changed

/-! ### The entry of a fault -/

/-- What a fault changes and leaves when it is taken (R233). -/
structure FaultEntry (s t : State) : Prop where
  live : s.Live
  code : 1 ≤ t.fault.toNat ∧ t.fault.toNat ≤ 6
  answer : t.out = .faulted t.fault :: s.out
  bound : t.bound = s.bound
  key : t.effKey = s.effKey
  iv : t.effIv = s.effIv
  idle : t.work = none
  items : t.itemsOut = s.itemsOut

/-- A fault raised, whatever was taken from the host or the upstream before. -/
theorem FaultEntry.of_raiseFault {s u : State} (c : FaultCode) (live : s.Live) (out : u.out = s.out)
    (bound : u.bound = s.bound) (key : u.effKey = s.effKey) (iv : u.effIv = s.effIv)
    (items : u.itemsOut = s.itemsOut) : FaultEntry s (u.raiseFault c) :=
  { live, bound, key, iv, items, code := c.code_bounds, answer := congrArg _ out, idle := rfl }

/-- An instruction changes `FAULT` only by entering a fault (R233). -/
theorem ExecCase.faultEntry {i : Instr} {s t : State} (run : ExecCase i s t) (changed : t.fault ≠ s.fault) :
    FaultEntry s t := by
  cases run with
  | raise c live _ => exact .of_raiseFault c live rfl rfl rfl rfl rfl
  | lost c _ live _ _ => exact .of_raiseFault c live (by simp) (by simp) (by simp) (by simp) (by simp)
  | record w _ _ => exact absurd (s.delivered_fault w) changed
  | faulted _ _ | status _ | bind _ _ _ _ _ _ _ | release _ _ | decrypt _ _ _ _ _ | decode _ _ _ _ =>
    exact absurd rfl changed
  | notReady _ _ _ | exhausted _ _ _ | item _ _ _ _ _ => exact absurd (by simp) changed

/-- Settles O51: a step enters a fault by an instruction or by rejecting a command; the reset event leaves none. -/
theorem faultEntryIsPrecise : Obligations.FaultEntryIsPrecise := by
  intro s t taken_step faulted changed
  have entry : FaultEntry s t := by
    cases step_cases taken_step with
    | reset rest _ _ => exact absurd rfl faulted
    | idle _ _ | badCommandFaulted _ _ _ _ _ _ | shortRecordFaulted _ _ _ => exact absurd rfl changed
    | shortRecord _ _ _ => exact absurd (s.delivered_fault _) changed
    | badCommand _ _ _ _ _ live => exact .of_raiseFault .badCommand live rfl rfl rfl rfl rfl
    | command _ _ _ _ _ _ _ _ run => exact { run.faultEntry changed with }
    | record _ _ _ _ _ run => exact run.faultEntry changed
  exact ⟨entry.live, entry.code.1, entry.code.2, entry.answer, entry.bound, entry.key, entry.iv, entry.idle,
    entry.items⟩

end Sys2Proof.Machine
end

