-- ==== Sys2Proof/Proofs/Frames.lean ====
section
/-! PROOFS. What every instruction leaves unchanged: the parameters, the session, the upstream, the counters
(10_state.md R22 to R33; 30_encoding.md R81; 20_memory.md R50). -/
namespace Sys2Proof.Machine

/-- Settles O52: by the cases of an instruction, each of which ends in one response. -/
theorem oneResponsePerInstruction : Obligations.OneResponsePerInstruction := by
  intro i s t run
  cases exec_cases run with
  | faulted _ _ | status _ | raise _ _ _ | bind _ _ _ _ _ _ _ | release _ _ | decrypt _ _ _ _ _ | decode _ _ _ _ =>
    exact ⟨rfl, _, rfl⟩
  | record w _ _ => rcases s.delivered_cases w with ⟨_, e⟩ | ⟨_, e⟩ <;> rw [e] <;> exact ⟨rfl, _, rfl⟩
  | notReady _ _ _ | exhausted _ _ _ | item _ _ _ _ _ | lost _ _ _ _ _ => simp

/-- Settles O53: `BIND` and `RELEASE` are the two cases that write the session. -/
theorem sessionFrame : Obligations.SessionFrame := by
  intro i s t run
  cases exec_cases run with
  | bind f addr _ _ _ writes _ => exact ⟨rfl, rfl, rfl, fun other => absurd (.inl ⟨f, addr, writes⟩) other⟩
  | release _ writes => exact ⟨rfl, rfl, rfl, fun other => absurd (.inr writes) other⟩
  | faulted _ _ | status _ | raise _ _ _ | decrypt _ _ _ _ _ | decode _ _ _ _ =>
    exact ⟨rfl, rfl, rfl, fun _ => ⟨rfl, rfl, rfl⟩⟩
  | record w _ _ =>
    rcases s.delivered_cases w with ⟨_, e⟩ | ⟨_, e⟩ <;> rw [e] <;> exact ⟨rfl, rfl, rfl, fun _ => ⟨rfl, rfl, rfl⟩⟩
  | notReady _ _ _ | exhausted _ _ _ | item _ _ _ _ _ | lost _ _ _ _ _ => simp

/-- Settles O54: a poll pulls once, everything else not at all; a record counts an item where a poll owns it. -/
theorem upstreamFrame : Obligations.UpstreamFrame := by
  intro i s t run
  cases exec_cases run with
  | faulted _ _ | status _ | raise _ _ _ | bind _ _ _ _ _ _ _ | release _ _ | decrypt _ _ _ _ _ | decode _ _ _ _ =>
    exact ⟨fun _ => ⟨rfl, rfl, rfl⟩, fun _ _ => rfl, fun _ _ => rfl, .inl ⟨rfl, rfl, rfl⟩, Nat.le_succ _⟩
  | record w _ is_record =>
    have no_command (h : i.space = .command) : False := by cases is_record.symm.trans h
    rcases s.delivered_cases w with ⟨_, e⟩ | ⟨poll, e⟩ <;> rw [e]
    · exact ⟨fun _ => ⟨rfl, rfl, rfl⟩, fun _ _ => rfl, fun _ _ => rfl, .inl ⟨rfl, rfl, rfl⟩, Nat.le_succ _⟩
    · exact ⟨fun _ => ⟨rfl, rfl, rfl⟩, fun _ owner => absurd owner poll, fun h => (no_command h).elim,
        .inl ⟨rfl, rfl, rfl⟩, le_rfl⟩
  | notReady _ polls answer | exhausted _ polls answer =>
    exact ⟨fun other => absurd polls other, fun other => absurd polls other, fun _ other => absurd polls other,
      .inr ⟨rfl, rfl, by simp [answer]⟩, by simp⟩
  | lost _ _ _ polls answer | item _ _ _ polls answer =>
    exact ⟨fun other => absurd polls other, fun other => absurd polls other, fun _ other => absurd polls other,
      .inr ⟨rfl, rfl, by simp [answer]⟩, by simp⟩

end Sys2Proof.Machine
end

