-- ==== Sys2Proof/Proofs/KeysAndProgress.lean ====
section
/-! PROOFS. An instruction that does not decrypt runs to its end, and alike under any key and IV; one that decrypts runs
to its end in a session (10_state.md R33, I16; 60_exceptions.md section 5). -/
namespace Sys2Proof.Machine

/-! ### Other keys in place -/

/-- The state with another key and IV in place. -/
def State.withKeys (s : State) (k v : Option Block) : State := { s with effKey := k, effIv := v }

/-- Two answers that complete, with next states that agree in every field but the key and the IV (decision D24). -/
def SameButKeys (a b : Answer) : Prop := ∃ (t : State) (k v : Option Block), a = .next t ∧ b = .next (t.withKeys k v)

section
variable (s : State) (k v : Option Block)

/-- A state answered is compared with the same under other keys. -/
theorem SameButKeys.next : SameButKeys (.next s) (.next (s.withKeys k v)) := ⟨s, k, v, rfl, rfl⟩

theorem State.pull_withKeys : (s.withKeys k v).pull = (s.pull.1, s.pull.2.withKeys k v) := by
  unfold State.pull
  cases script : s.upstream with
  | nil => simp only [State.withKeys, script]
  | cons _ _ => simp only [State.withKeys, script]

theorem State.delivered_withKeys (w : BitVec 32) : (s.withKeys k v).delivered w = (s.delivered w).withKeys k v := by
  have owner_eq : (s.withKeys k v).owner = s.owner := rfl
  rcases s.delivered_cases w with ⟨owner, e⟩ | ⟨owner, e⟩ <;> rw [e, State.delivered, owner_eq]
  · rw [if_pos owner]
    rfl
  · rw [if_neg owner]
    rfl

theorem State.finishDecode_withKeys (r : DecodeOutcome) :
    (s.withKeys k v).finishDecode r = (s.finishDecode r).withKeys k v := by
  cases r with
  | result r => rw [State.finishDecode_result, State.finishDecode_result, State.delivered_withKeys]
  | faceFault => rfl

theorem State.decodeChecked_withKeys (o : Owner) (buf : Bytes) :
    (s.withKeys k v).decodeChecked o buf = (s.decodeChecked o buf).withKeys k v := by
  by_cases fits : s.Fits buf
  · have fits' : (s.withKeys k v).Fits buf := fits
    rw [State.decodeChecked_fits fits, State.decodeChecked_fits fits', State.runDecoder, State.runDecoder,
      ← State.finishDecode_withKeys]
    rfl
  · have too_long : ¬ (s.withKeys k v).Fits buf := fits
    rw [State.decodeChecked_tooLong fits, State.decodeChecked_tooLong too_long]
    rfl

theorem State.afterPull_id_withKeys {item : Bytes → State → State}
    (same : ∀ buf u, item buf (State.withKeys u k v) = (item buf u).withKeys k v) :
    (s.withKeys k v).afterPull id item = (s.afterPull id item).withKeys k v := by
  have answer_eq : (s.withKeys k v).pull.1 = s.pull.1 := by rw [State.pull_withKeys]
  have state_eq : (s.withKeys k v).pull.2 = s.pull.2.withKeys k v := by rw [State.pull_withKeys]
  cases answer : s.pull.1 with
  | notReady =>
    rw [State.afterPull_notReady answer, State.afterPull_notReady (answer_eq.trans answer), state_eq]
    rfl
  | exhausted =>
    rw [State.afterPull_exhausted answer, State.afterPull_exhausted (answer_eq.trans answer), state_eq]
    rfl
  | ready buf =>
    rw [State.afterPull_ready answer, State.afterPull_ready (answer_eq.trans answer), state_eq]
    exact same buf s.pull.2.countTaken

end

section
variable {s : State} (live : s.Live) (k v : Option Block)
include live

theorem SameButKeys.badCommand : SameButKeys s.badCommand (s.withKeys k v).badCommand := by
  have live' : (s.withKeys k v).Live := live
  rw [State.badCommand_of_live live, State.badCommand_of_live live']
  exact .next _ k v

theorem SameButKeys.runRecord (r : DecodeOutcome) : SameButKeys (s.runRecord r) ((s.withKeys k v).runRecord r) := by
  have live' : (s.withKeys k v).Live := live
  rw [State.runRecord_of_live live, State.runRecord_of_live live', State.finishDecode_withKeys]
  exact .next _ k v

/-- `BIND` derives its key and IV from the key table and the address alone (R103). -/
theorem SameButKeys.bind (f : Family) (addr : Bytes) :
    SameButKeys (exec (.bind f addr) s) (exec (.bind f addr) (s.withKeys k v)) := by
  have live' : (s.withKeys k v).Live := live
  by_cases six : addr.length = 6
  · cases bound : s.bound with
    | false =>
      rw [exec_bind_of_unbound live f six bound, exec_bind_of_unbound live' f six bound]
      exact ⟨_, _, _, rfl, rfl⟩
    | true =>
      rw [exec_bind_of_bound live f six bound, exec_bind_of_bound live' f six bound]
      exact .next _ k v
  · rw [exec_bind_of_wrong_length live f six, exec_bind_of_wrong_length live' f six]
    exact .next _ k v

end

/-- An instruction that does not decrypt completes, alike under every key and IV. -/
theorem exec_sameButKeys {i : Instr} (other : ¬ Decrypts i) (s : State) (k v : Option Block) :
    SameButKeys (exec i s) (exec i (s.withKeys k v)) := by
  by_cases status : i = .status
  · subst status
    exact .next _ k v
  by_cases live : s.Live
  swap
  · have faulted : ¬ (s.withKeys k v).Live := live
    rw [exec_of_faulted live status, exec_of_faulted faulted status]
    exact .next _ k v
  have live' : (s.withKeys k v).Live := live
  cases i with
  | status => exact absurd rfl status
  | decrypt buf => exact absurd (.inl ⟨buf, rfl⟩) other
  | pollDec => exact absurd (.inr (.inl rfl)) other
  | poll => exact absurd (.inr (.inr rfl)) other
  | bind f addr => exact .bind live k v f addr
  | release =>
    rw [exec_release_of_live live, exec_release_of_live live']
    exact .next _ none none
  | decode buf =>
    rw [exec_decode_of_live live, exec_decode_of_live live', State.decodeChecked_withKeys]
    exact .next _ k v
  | pollEvt =>
    rw [exec_pollEvt_of_live live, exec_pollEvt_of_live live',
      State.afterPull_id_withKeys s k v fun buf u => u.decodeChecked_withKeys k v .pollEvt buf]
    exact .next _ k v
  | reservedOp0 _ _ | reservedOp9 _ _ | reservedOpA _ _ | reservedOpB _ _ | reservedOpC _ _ | reservedOpD _ _
  | reservedOpE _ _ | reservedOpF _ _ => exact .badCommand live k v
  | move _ _ _ _ | evtUnknown0 | evtUnknown1 | evtUnknown3 | evtUnknown4 | evtUnknown5 | evtUnknown6 | evtUnknown7
  | evtUnknown8 | evtUnknown9 | evtUnknown10 | evtUnknown11 | evtUnknown12 | evtUnknown13 | evtUnknown14
  | evtUnknown15 => exact .runRecord live k v _

/-- Settles O55: only a decryption reads the key and the IV. -/
theorem keysAreNotRevealed : Obligations.KeysAreNotRevealed :=
  fun _ s k v other => exec_sameButKeys other s k v

/-! ### Progress -/

/-- An answer that is a next state. -/
def Completes (a : Answer) : Prop := ∃ t, a = .next t

theorem State.badCommand_completes (s : State) : Completes s.badCommand := by
  by_cases live : s.Live
  · exact ⟨_, State.badCommand_of_live live⟩
  · exact ⟨_, State.whenLive_of_faulted live _⟩

theorem State.whenBound_completes {s : State} {f : State → Answer} (h : s.bound = true → Completes (f s)) :
    Completes (s.whenBound f) := by
  cases bound : s.bound with
  | false => exact ⟨_, State.whenBound_of_unbound bound f⟩
  | true =>
    rw [State.whenBound_of_bound bound]
    exact h bound

/-- With a key and an IV a checked decryption does not stop. -/
theorem State.decryptChecked_completes {s : State} {buf : Bytes} {k : Bytes → Answer} (key : s.effKey.isSome)
    (iv : s.effIv.isSome) (h : ∀ p, Completes (k p)) : Completes (s.decryptChecked buf k) := by
  obtain ⟨K, key⟩ := Option.isSome_iff_exists.mp key
  obtain ⟨V, iv⟩ := Option.isSome_iff_exists.mp iv
  by_cases fits : s.Fits buf
  · by_cases short : buf.length ≤ 16
    · exact ⟨_, State.decryptChecked_short fits short k⟩
    · rw [State.decryptChecked_ok fits (not_le.mp short) key iv]
      exact h _
  · exact ⟨_, State.decryptChecked_tooLong fits k⟩

theorem State.pollDecrypting_completes {s : State} (inv : s.Inv) (deliver : Bytes → State → State) :
    Completes (s.pollDecrypting deliver) := by
  refine State.whenBound_completes fun bound => ?_
  rcases State.afterPull_cases s (.next : State → Answer) _ with ⟨_, e⟩ | ⟨_, e⟩ | ⟨buf, _, e⟩ <;> rw [e]
  · exact ⟨_, rfl⟩
  · exact ⟨_, rfl⟩
  · exact State.decryptChecked_completes (by simp [← inv.key, bound]) (by simp [← inv.iv, bound]) fun p => ⟨_, rfl⟩

theorem exec_completes_of_decrypts {s : State} {i : Instr} (inv : s.Inv) (decrypts : Decrypts i) :
    Completes (exec i s) := by
  by_cases live : s.Live
  · rcases decrypts with ⟨buf, rfl⟩ | rfl | rfl
    · rw [exec_decrypt_of_live live]
      exact State.whenBound_completes fun bound =>
        State.decryptChecked_completes (inv.key ▸ bound) (inv.iv ▸ bound) fun _ => ⟨_, rfl⟩
    · rw [exec_pollDec_eq live]
      exact State.pollDecrypting_completes inv _
    · rw [exec_poll_eq live]
      exact State.pollDecrypting_completes inv _
  · exact ⟨_, exec_of_faulted live (by rintro rfl; simp [Decrypts] at decrypts)⟩

/-- Under the invariant every instruction completes: the readers of key and IV check the session first. -/
theorem exec_completes {s : State} (inv : s.Inv) (i : Instr) : Completes (exec i s) := by
  by_cases decrypts : Decrypts i
  · exact exec_completes_of_decrypts inv decrypts
  · obtain ⟨t, _, _, run, _⟩ := exec_sameButKeys decrypts s none none
    exact ⟨t, run⟩

/-- Settles O59: between commands a step waits, resets, rejects a command, or runs an instruction, which completes. -/
theorem machineNeverStops : Obligations.MachineNeverStops := by
  intro s inv
  cases inbox : s.inbox with
  | nil => exact ⟨s, step_of_nothing_pending inv.idle inbox⟩
  | cons input rest =>
    cases input with
    | reset => exact ⟨_, step_of_reset inv.idle inbox⟩
    | command cmd payload =>
      cases decoded : decodeCommand cmd payload with
      | ok i =>
        rw [step_of_accepted inv.idle inbox decoded]
        exact exec_completes (inv.setInbox rest) i
      | error e =>
        rw [step_of_refused inv.idle inbox decoded]
        exact State.badCommand_completes _

end Sys2Proof.Machine
end
